-- ==== Sys2Proof/Word.lean ====
section
/-! DEFINITION. The word of the engine: one byte (00_scope.md R15). Register values, memory cells, opcode and
operand bytes are all 8 bits wide; there is no other width. The program counter is a natural number (10_state.md R24). -/

namespace Sys2Proof

/-- A byte, bits 7 (most significant) to 0, read as an unsigned number 0 to 255 (R15). -/
abbrev Byte := BitVec 8

end Sys2Proof
end

