-- ==== Sys2Proof/Config.lean ====
section
/-! DEFINITION. The implementation parameters of 00_scope.md Table P (R6).
The first group is fixed by the document and stands here as constants. The second group, which the document leaves
open, is the record `Config`, so that a claim can quantify over it. The values this machine takes for the second
group are `machineConfig` (Decode.lean). -/

namespace Sys2Proof

/-- `MEM_SIZE`: number of memory cells, addresses 0 to 255 (R6, R36). -/
abbrev memSize : Nat := 256

/-- `NREG`: number of general registers (R6, R17). -/
abbrev numRegs : Nat := 8

/-- `SP_INDEX`: the register that is the stack pointer (R6, R20). -/
abbrev spIndex : Fin numRegs := 7

/-- `SP_RESET`: the stack pointer after reset (R6, R34). -/
abbrev spReset : Byte := 0xF4

/-- `PC_RESET`: the program counter after reset (R6, R34). -/
abbrev pcReset : Nat := 0

/-- `LOAD_BASE`: the address of the first loaded byte (R6, R9). -/
abbrev loadBase : Nat := 0

/-- The second group of Table P: the parameters the document leaves open (R6, R7; the spec's own choices D2, D3, D5). -/
structure Config where
  /-- `OP_ADD`: the opcode byte of ADD. -/
  opAdd : Byte
  /-- `OP_PUSH`: the opcode byte of PUSH. -/
  opPush : Byte
  /-- `OP_POP`: the opcode byte of POP. -/
  opPop : Byte
  /-- `PC_MIN_BITS`: the least width of a register that holds PC. Claims name it; no step reads it, since PC is a natural
  number that no width reduces (10_state.md R24; decision D2, entry 3). -/
  pcMinBits : Nat
  /-- `OPERAND_OOR_VALUE`: what an operand pre-fetch from an address above 255 returns (R41). -/
  operandOor : Byte
  deriving DecidableEq, Repr

end Sys2Proof
end

