-- ==== Sys2Proof/Syntax.lean ====
section
/-! DEFINITION. The instructions: one constructor per row of spec/opcode_table.json, in the table's order.
An operand is the whole operand byte (30_encoding.md R57, R58): a register operand 8 to 255 is an instruction that can
be fetched and that faults when it executes, so it has a place here. -/

namespace Sys2Proof

/-- The eight instructions (00_scope.md R1; 30_encoding.md Table O). -/
inductive Instr where
  /-- `NOP` (42_system.md R81). -/
  | nop
  /-- `HLT` (42_system.md R80). -/
  | hlt
  /-- `PRN Ra` (42_system.md R79). -/
  | prn (a : Byte)
  /-- `LDI Ra, imm` (41_ldi.md R78). -/
  | ldi (a imm : Byte)
  /-- `MUL Ra, Rb` (43_alu.md R85). -/
  | mul (a b : Byte)
  /-- `ADD Ra, Rb` (43_alu.md R86). -/
  | add (a b : Byte)
  /-- `PUSH Ra` (44_stack.md R89). -/
  | push (a : Byte)
  /-- `POP Ra` (44_stack.md R90). -/
  | pop (a : Byte)
  deriving DecidableEq, Repr

end Sys2Proof
end

