-- ==== Sys2Proof/WellFormed.lean ====
section
/-! DEFINITION. Well-formed instructions: every register operand names one of R0 to R7.
"It is valid only when it is 0 to 7" (30_encoding.md R58). The decoder gives ill-formed instructions too, since their
bytes can be fetched; executing one takes the fault OutOfBounds(reg, index). -/

namespace Sys2Proof

/-- A register operand byte that names a register, 0 to 7 (30_encoding.md R58, 10_state.md R18). -/
def validReg (i : Byte) : Bool := decide (i.toNat < numRegs)

/-- The operand bytes that an instruction uses as register indices, in the order in which it checks them
(60_exceptions.md R102); the immediate of LDI is none (R58). -/
def Instr.registerOperands : Instr → List Byte
  | .nop => []
  | .hlt => []
  | .prn a => [a]
  | .ldi a _ => [a]
  | .mul a b => [a, b]
  | .add a b => [a, b]
  | .push a => [a]
  | .pop a => [a]

/-- Every register operand of the instruction is valid (R58). -/
def Instr.wf (i : Instr) : Bool := i.registerOperands.all validReg

end Sys2Proof
end

