-- ==== Sys2Proof/Decode.lean ====
section
/-! DEFINITION. The encoding of instructions (30_encoding.md): the opcode map, the decoder, the encoder.
The decoder reads the three bytes a step latches (10_state.md R27), compares the whole opcode byte (R60), and rejects
by name every byte that is no opcode (R61); it never looks at a sub-field of the opcode byte (R57). -/

namespace Sys2Proof

/-! ### The opcode map (30_encoding.md R59, Table O) -/

/-- `OP_NOP`. -/
def opNop : Byte := 0x00
/-- `OP_HLT`. -/
def opHlt : Byte := 0x01
/-- `OP_PRN`. -/
def opPrn : Byte := 0x47
/-- `OP_LDI`. -/
def opLdi : Byte := 0x82
/-- `OP_MUL`. -/
def opMul : Byte := 0xA2

/-- The parameters of this machine: the spec's defaults 0xA0, 0x45, 0x46 for the three opcode bytes the document does
not give (PRESUMED, entry 1; decision D5), 9 bits as the least width of PC (10_state.md R24; entry 3), and 0 for an
out-of-range operand pre-fetch (R41; entry 2). -/
def machineConfig : Config :=
  { opAdd := 0xA0, opPush := 0x45, opPop := 0x46, pcMinBits := 9, operandOor := 0x00 }

/-- The opcode bytes of the table, in its order. -/
def Config.opcodes (c : Config) : List Byte :=
  [opNop, opHlt, opPrn, opLdi, opMul, c.opAdd, c.opPush, c.opPop]

/-- The constraint of 00_scope.md R7 on the open opcode bytes: different from each other and from the five given
ones. -/
def Config.wf (c : Config) : Bool :=
  decide (c.opAdd ∉ [opNop, opHlt, opPrn, opLdi, opMul] ∧ c.opPush ∉ [opNop, opHlt, opPrn, opLdi, opMul, c.opAdd] ∧
    c.opPop ∉ [opNop, opHlt, opPrn, opLdi, opMul, c.opAdd, c.opPush])

/-! ### Decoding -/

/-- The transient tuple of one step: opcode byte IR, operand-a and operand-b (10_state.md R27). -/
structure InstrBytes where
  ir : Byte
  a : Byte
  b : Byte
  deriving DecidableEq, Repr

/-- Why the decoder rejects. -/
inductive DecodeError where
  /-- The opcode byte is in no row of the opcode table (30_encoding.md R61). -/
  | unknownOpcode (ir : Byte)
  deriving DecidableEq, Repr

/-- Exact match of the whole opcode byte (30_encoding.md R60), in the order of the decode arms (40_cycle.md R71).
A format uses only its own operand bytes (R62). -/
def decodeWith (c : Config) (w : InstrBytes) : Except DecodeError Instr :=
  if w.ir = opLdi then .ok (.ldi w.a w.b)
  else if w.ir = opPrn then .ok (.prn w.a)
  else if w.ir = opHlt then .ok .hlt
  else if w.ir = opMul then .ok (.mul w.a w.b)
  else if w.ir = c.opAdd then .ok (.add w.a w.b)
  else if w.ir = c.opPush then .ok (.push w.a)
  else if w.ir = c.opPop then .ok (.pop w.a)
  else if w.ir = opNop then .ok .nop
  else .error (.unknownOpcode w.ir)

/-- The decoder of this machine. -/
def decode (w : InstrBytes) : Except DecodeError Instr := decodeWith machineConfig w

/-! ### Encoding -/

/-- The opcode byte of an instruction (30_encoding.md Table O). -/
def Instr.opcode (c : Config) : Instr → Byte
  | .nop => opNop
  | .hlt => opHlt
  | .prn _ => opPrn
  | .ldi _ _ => opLdi
  | .mul _ _ => opMul
  | .add _ _ => c.opAdd
  | .push _ => c.opPush
  | .pop _ => c.opPop

/-- The operand bytes of an instruction in ascending address order (30_encoding.md Table F, 20_memory.md R44). -/
def Instr.operands : Instr → List Byte
  | .nop => []
  | .hlt => []
  | .prn a => [a]
  | .ldi a imm => [a, imm]
  | .mul a b => [a, b]
  | .add a b => [a, b]
  | .push a => [a]
  | .pop a => [a]

/-- The length in bytes: the opcode byte plus the operand bytes (30_encoding.md R56). -/
def Instr.length (i : Instr) : Nat := 1 + i.operands.length

/-- By how much an executed instruction advances PC: its length, but HLT leaves PC unchanged (10_state.md R25). -/
def Instr.pcAdvance : Instr → Nat
  | .hlt => 0
  | .nop => 1
  | .prn _ => 2
  | .ldi _ _ => 3
  | .mul _ _ => 3
  | .add _ _ => 3
  | .push _ => 2
  | .pop _ => 2

/-- The bytes of an instruction, the opcode at the lowest address (30_encoding.md R56, 20_memory.md R44). -/
def encodeWith (c : Config) (i : Instr) : List Byte := i.opcode c :: i.operands

/-- The encoder of this machine. -/
def encode (i : Instr) : List Byte := encodeWith machineConfig i

/-- The three bytes a step latches from a list of bytes in address order; a missing byte is taken as 0. -/
def latchList (bs : List Byte) : InstrBytes :=
  { ir := bs.getD 0 0, a := bs.getD 1 0, b := bs.getD 2 0 }

/-! ### The host's table words -/

/-- Byte `k` (0 at the lowest address) of the instruction whose low `nbits` bits are those of `w`, the bits above
them 0; bit 0 is the least significant bit of the opcode byte. -/
def tableWordByte (nbits w k : Nat) : Byte := BitVec.ofNat 8 ((w % 2 ^ nbits) >>> (8 * k))

/-- The instruction the decoder reads from a table word. -/
def decodeTableWord (nbits w : Nat) : Option Instr :=
  match decode { ir := tableWordByte nbits w 0, a := tableWordByte nbits w 1, b := tableWordByte nbits w 2 } with
  | .ok i => some i
  | .error _ => none

end Sys2Proof
end

