-- ==== Sys2Proof/Machine/State.lean ====
section
/-! DEFINITION. The architectural state (10_state.md R16): memory, eight registers, program counter, run status, and
the two observation lists of R32. Nothing else is kept from one instruction to the next. -/

namespace Sys2Proof.Machine

/-- The fatal run-time conditions and what is recorded with each (60_exceptions.md R94, R99). -/
inductive FaultKind where
  /-- OutOfBounds(mem, address): the opcode fetch found PC at 256 or more (R95a); the loader meets it too (R115). -/
  | outOfBoundsMem (addr : Nat)
  /-- OutOfBounds(reg, index): an instruction names register 8 to 255 (R95b). -/
  | outOfBoundsReg (index : Byte)
  /-- UnsupportedOperation(op): the ALU was handed an operation it does not implement (R96). -/
  | unsupportedOperation (op : Byte)
  deriving DecidableEq, Repr

/-- The run status (10_state.md R26). -/
inductive Status where
  | running
  | halted
  | faulted (kind : FaultKind)
  deriving DecidableEq, Repr

/-- The event UnknownInstruction(pc, ir) of the diagnostic channel (00_scope.md R12). -/
structure Report where
  pc : Nat
  ir : Byte
  deriving DecidableEq, Repr

/-- What a cell that nothing has written reads as: 0, the reset content of every cell (10_state.md R34, R35). -/
def unwrittenByte : Byte := 0x00

/-- The memory (20_memory.md R36): the cells that do not hold `unwrittenByte`, by address. -/
abbrev Memory := List Host.Cell

/-- Cells at addresses `lo` or more, strictly rising, below 256, none holding `unwrittenByte`. -/
def Memory.wfFrom (lo : Nat) : Memory → Bool
  | [] => true
  | (a, v) :: rest =>
    decide (lo ≤ a) && decide (a < memSize) && decide (v ≠ unwrittenByte) && Memory.wfFrom (a + 1) rest

/-- The canonical form of a memory: equal memories are equal lists. -/
def Memory.wf (m : Memory) : Bool := Memory.wfFrom 0 m

/-- The state between two steps (10_state.md R16). -/
structure State where
  /-- The 256 memory cells (R36). -/
  mem : Memory
  /-- R0 to R7; R7 is the stack pointer (R17, R20). -/
  regs : Vector Byte numRegs
  /-- The program counter, a natural number that never wraps (R23, R24). -/
  pc : Nat
  /-- The run status (R26). -/
  status : Status
  /-- The values handed to the output channel, oldest first (R32). -/
  out : List Byte
  /-- The reports handed to the diagnostic channel, oldest first (R32). -/
  diag : List Report
  deriving DecidableEq, Repr

/-- The state right after construction, before load (10_state.md R34, Table V; 70_reset_and_hazards.md R112). -/
def State.reset : State where
  mem := []
  regs := #v[0, 0, 0, 0, 0, 0, 0, spReset]
  pc := pcReset
  status := .running
  out := []
  diag := []

/-- Why `step` stops: no step is enabled (40_cycle.md R68). The state is the last one and does not change (R26). -/
inductive Fault where
  /-- The status is HALTED. Raised by `step` alone; safe: the machine does nothing there either. -/
  | notEnabledHalted
  /-- The status is FAULTED(kind). Raised by `step` alone; safe: the machine does nothing there either. -/
  | notEnabledFaulted (kind : FaultKind)
  deriving DecidableEq, Repr

/-- Why an instruction is refused. -/
inductive Refusal where
  /-- The instruction of this mnemonic has no meaning in the model. No arm of `exec` answers this: every instruction
  is modelled. Safe. -/
  | notModelled (mnemonic : String)
  deriving DecidableEq, Repr

end Sys2Proof.Machine
end

