-- ==== Sys2Proof/Machine/Ops.lean ====
section
/-! DEFINITION. The named operations on the state that several instructions share: memory reads and writes, the
advance of PC, the two channels, taking a fatal fault. -/

namespace Sys2Proof.Machine

/-- The value as an 8-bit register or cell keeps it: modulo 256, in 0 to 255 (10_state.md R19). -/
def wrap8 (v : Int) : Byte := BitVec.ofInt 8 v

/-! ### The memory array -/

/-- The content of cell `addr`. -/
def Memory.readByte : Memory → Nat → Byte
  | [], _ => unwrittenByte
  | (a, v) :: rest, addr => if addr = a then v else Memory.readByte rest addr

/-- The memory with cell `addr` holding `v`, in canonical form. -/
def Memory.writeByte : Memory → Nat → Byte → Memory
  | [], addr, v => if v = unwrittenByte then [] else [(addr, v)]
  | (a, w) :: rest, addr, v =>
    if addr < a then (if v = unwrittenByte then (a, w) :: rest else (addr, v) :: (a, w) :: rest)
    else if addr = a then (if v = unwrittenByte then rest else (a, v) :: rest)
    else (a, w) :: Memory.writeByte rest addr v

/-- The state with cell `addr` holding `v`. -/
def State.setByte (s : State) (addr : Nat) (v : Byte) : State := { s with mem := s.mem.writeByte addr v }

/-- `MemRead(addr, 1)` (20_memory.md R38): bounds-checked, no side effect. -/
def memRead (addr : Nat) (s : State) : Except FaultKind Byte :=
  if addr ≥ memSize then .error (.outOfBoundsMem addr) else .ok (s.mem.readByte addr)

/-- `MemWrite(addr, 1, v)` (20_memory.md R39): bounds-checked, stores `v mod 256`, changes no other cell. -/
def memWrite (addr : Nat) (v : Nat) (s : State) : Except FaultKind State :=
  if addr ≥ memSize then .error (.outOfBoundsMem addr) else .ok (s.setByte addr (wrap8 v))

/-- `OperandFetch(addr)` (20_memory.md R41): the cell, or the constant `OPERAND_OOR_VALUE` above 255; never faults. -/
def operandFetch (c : Config) (addr : Nat) (s : State) : Byte :=
  if addr < memSize then s.mem.readByte addr else c.operandOor

/-! ### Sequencing and the channels -/

/-- `pc <- pc + n`; PC never wraps (10_state.md R24, R25). -/
def State.advancePc (s : State) (n : Nat) : State := { s with pc := s.pc + n }

/-- `emit Out(v)` (00_scope.md R11). -/
def State.emitOut (s : State) (v : Byte) : State := { s with out := s.out ++ [v] }

/-- `report UnknownInstruction(p, b)` (00_scope.md R12). -/
def State.reportUnknown (s : State) (p : Nat) (b : Byte) : State := { s with diag := s.diag ++ [{ pc := p, ir := b }] }

/-- `status <- HALTED` (42_system.md R80). -/
def State.halt (s : State) : State := { s with status := .halted }

/-! ### Taking a fatal fault -/

/-- Fault entry (60_exceptions.md R100, 40_cycle.md R73): the status becomes FAULTED(kind), nothing else changes;
no control transfer, no saved register, PC still at the faulting instruction. Nothing returns from it (R101). -/
def State.takeFault (s : State) (k : FaultKind) : State := { s with status := .faulted k }

/-- The end of a decode arm: the state the arm computed, or, where it raised, the state `s` before the step with the
fault taken (R73: no partial effect). Both are next states. -/
def conclude (s : State) : Except FaultKind State → Host.Outcome State Fault Refusal
  | .ok t => .next t
  | .error k => .next (s.takeFault k)

end Sys2Proof.Machine
end

