-- ==== Sys2Proof/Machine/Operands.lean ====
section
/-! DEFINITION. The operand forms of the engine (30_encoding.md R58, 44_stack.md): a register named by an operand byte,
and the register-indirect access through SP with pre-decrement (PUSH) or post-increment (POP). The immediate of LDI is
its byte as it stands and needs no function. -/

namespace Sys2Proof.Machine

/-! ### The register file (10_state.md R17 to R19) -/

/-- The value of register `r`. -/
def State.reg (s : State) (r : Fin numRegs) : Byte := s.regs[r]

/-- The state with register `r` holding `v`. -/
def State.setReg (s : State) (r : Fin numRegs) (v : Byte) : State := { s with regs := s.regs.set r v }

/-- The register an operand byte names: the whole byte is the index, 8 to 255 raise OutOfBounds(reg, index); no bit is
ignored or masked (10_state.md R18, 30_encoding.md R58). -/
def regIndex (i : Byte) : Except FaultKind (Fin numRegs) :=
  if h : i.toNat < numRegs then .ok ⟨i.toNat, h⟩ else .error (.outOfBoundsReg i)

/-- `get(index)`, written `x[i]` (R18). -/
def regRead (i : Byte) (s : State) : Except FaultKind Byte := do
  let r ← regIndex i
  return s.reg r

/-- `set(index, value)`, written `x[i] <- v`: stores `v mod 256` (R18, R19). -/
def regWrite (i : Byte) (v : Int) (s : State) : Except FaultKind State := do
  let r ← regIndex i
  return s.setReg r (wrap8 v)

/-! ### The stack pointer: a second name of R7 (10_state.md R20) -/

/-- `sp`. -/
def State.sp (s : State) : Byte := s.reg spIndex

/-- `sp <- v mod 256` (R19, R22). -/
def State.setSp (s : State) (v : Int) : State := s.setReg spIndex (wrap8 v)

/-- `sp <- (sp - 1) mod 256`. -/
def State.decSp (s : State) : State := s.setSp ((s.sp.toNat : Int) - 1)

/-- `sp <- (sp + 1) mod 256`. -/
def State.incSp (s : State) : State := s.setSp ((s.sp.toNat : Int) + 1)

/-- The address PUSH writes: the decremented SP (44_stack.md R89). -/
def pushAddress (s : State) : Nat := s.decSp.sp.toNat

/-- The address POP reads: SP before the increment (44_stack.md R90). -/
def popAddress (s : State) : Nat := s.sp.toNat

/-- Pre-decrement push of register `r`: SP first, then the store of `r` as it is THEN (R89, R93). -/
def stackPush (r : Fin numRegs) (s : State) : Except FaultKind State :=
  memWrite (pushAddress s) (s.decSp.reg r).toNat s.decSp

/-- Post-increment pop into register `r`: the load first, then the increment of SP as it is THEN (R90, R93). -/
def stackPop (r : Fin numRegs) (s : State) : Except FaultKind State := do
  let v ← memRead (popAddress s) s
  return (s.setReg r v).incSp

end Sys2Proof.Machine
end

