-- ==== Sys2Proof/Machine/Flags.lean ====
section
/-! DEFINITION. The arithmetic of the ALU. THERE ARE NO FLAGS: no instruction sets or reads a carry, zero, sign or
overflow indication, and the bits above bit 7 of a result are lost without a record (10_state.md R28, 43_alu.md R87).
So what stands here is the exact natural result of each operation; the register write reduces it modulo 256. -/

namespace Sys2Proof.Machine

/-- The operations the ALU supports (43_alu.md R83, R88). -/
inductive AluOp where
  | add
  | mul
  deriving DecidableEq, Repr

/-- The operation an identifier selects: the identifier is the opcode byte (R83; decision D6). -/
def aluOperation (c : Config) (op : Byte) : Option AluOp :=
  if op = c.opAdd then some .add else if op = opMul then some .mul else none

/-- The exact result, a sum up to 510 or a product up to 65025 (10_state.md R19, 43_alu.md R87). -/
def aluResult : AluOp → Byte → Byte → Nat
  | .add, x, y => x.toNat + y.toNat
  | .mul, x, y => x.toNat * y.toNat

end Sys2Proof.Machine
end

