-- ==== Sys2Proof/Machine/Alu.lean ====
section
/-! DEFINITION. The ALU block and the arithmetic instructions MUL and ADD (43_alu.md). -/

namespace Sys2Proof.Machine

/-- `ALU.apply(op, a, b)` (R83): the operation is checked first, then index `a`, then index `b`, then `x[a]` is
written; nothing else is touched. An identifier that is neither `OP_ADD` nor `OP_MUL` raises UnsupportedOperation(op)
(R84, R96). -/
def aluApply (c : Config) (op a b : Byte) (s : State) : Except FaultKind State :=
  match aluOperation c op with
  | none => .error (.unsupportedOperation op)
  | some o => do
    let x ← regRead a s
    let y ← regRead b s
    regWrite a (aluResult o x y) s

/-- `MUL Ra, Rb`: `ALU.apply(OP_MUL, a, b); pc <- pc + 3` (R85). -/
def execMul (a b : Byte) (s : State) : Host.Outcome State Fault Refusal :=
  conclude s do
    let t ← aluApply machineConfig opMul a b s
    return t.advancePc 3

/-- `ADD Ra, Rb`: `ALU.apply(OP_ADD, a, b); pc <- pc + 3` (R86). -/
def execAdd (a b : Byte) (s : State) : Host.Outcome State Fault Refusal :=
  conclude s do
    let t ← aluApply machineConfig machineConfig.opAdd a b s
    return t.advancePc 3

end Sys2Proof.Machine
end

