-- ==== Sys2Proof/Machine/Immediate.lean ====
section
/-! DEFINITION. Load immediate (41_ldi.md). -/

namespace Sys2Proof.Machine

/-- `LDI Ra, imm`: `x[a] <- imm; pc <- pc + 3` (R78). -/
def execLdi (a imm : Byte) (s : State) : Host.Outcome State Fault Refusal :=
  conclude s do
    let t ← regWrite a imm.toNat s
    return t.advancePc 3

end Sys2Proof.Machine
end

