-- ==== Sys2Proof/Machine/Stack.lean ====
section
/-! DEFINITION. PUSH and POP (44_stack.md). The operand's index is checked before anything changes (40_cycle.md R73,
R74). -/

namespace Sys2Proof.Machine

/-- `PUSH Ra`: `sp <- (sp - 1) mod 256; MemWrite(sp, 1, x[a]); pc <- pc + 2` (R89, R93). -/
def execPush (a : Byte) (s : State) : Host.Outcome State Fault Refusal :=
  conclude s do
    let r ← regIndex a
    let t ← stackPush r s
    return t.advancePc 2

/-- `POP Ra`: `x[a] <- MemRead(sp, 1); sp <- (sp + 1) mod 256; pc <- pc + 2` (R90, R93). -/
def execPop (a : Byte) (s : State) : Host.Outcome State Fault Refusal :=
  conclude s do
    let r ← regIndex a
    let t ← stackPop r s
    return t.advancePc 2

end Sys2Proof.Machine
end

