-- ==== Sys2Proof/Machine/System.lean ====
section
/-! DEFINITION. PRN, HLT, NOP and the unknown-opcode arm (42_system.md). -/

namespace Sys2Proof.Machine

/-- `PRN Ra`: `emit Out(x[a]); pc <- pc + 2` (R79). -/
def execPrn (a : Byte) (s : State) : Host.Outcome State Fault Refusal :=
  conclude s do
    let v ← regRead a s
    return (s.emitOut v).advancePc 2

/-- `HLT`: `status <- HALTED`, PC unchanged (R80). -/
def execHlt (s : State) : Host.Outcome State Fault Refusal :=
  conclude s (.ok s.halt)

/-- `NOP`: `pc <- pc + 1` (R81). -/
def execNop (s : State) : Host.Outcome State Fault Refusal :=
  conclude s (.ok (s.advancePc 1))

/-- The unknown-opcode arm: `report UnknownInstruction(pc, ir); pc <- pc + 1` (R82). It is no instruction of the
opcode table, so it is no constructor of `Instr`; `step` runs it where the decoder rejects. -/
def execUnknown (ir : Byte) (s : State) : Host.Outcome State Fault Refusal :=
  conclude s (.ok ((s.reportUnknown s.pc ir).advancePc 1))

end Sys2Proof.Machine
end

