-- ==== Sys2Proof/Machine/Dispatch.lean ====
section
/-! DEFINITION. The decode arms (40_cycle.md R71): one arm per instruction of the opcode table. -/

namespace Sys2Proof.Machine

/-- Phase 3 for a known instruction. The step has found the status RUNNING before it comes here (R68). -/
def exec (i : Instr) (s : State) : Host.Outcome State Fault Refusal :=
  match i with
  | .nop => Sys2Proof.Machine.execNop s
  | .hlt => Sys2Proof.Machine.execHlt s
  | .prn a => Sys2Proof.Machine.execPrn a s
  | .ldi a imm => Sys2Proof.Machine.execLdi a imm s
  | .mul a b => Sys2Proof.Machine.execMul a b s
  | .add a b => Sys2Proof.Machine.execAdd a b s
  | .push a => Sys2Proof.Machine.execPush a s
  | .pop a => Sys2Proof.Machine.execPop a s

end Sys2Proof.Machine
end

