-- ==== Sys2Proof/Machine/Fetch.lean ====
section
/-! DEFINITION. What a step does before it decodes (40_cycle.md R68 to R72): whether a step is enabled, the opcode
fetch, the operand pre-fetch. -/

namespace Sys2Proof.Machine

/-- "A step is enabled exactly when the status is RUNNING" (R68); where it is not, why. -/
def stepEnabled (s : State) : Except Fault Unit :=
  match s.status with
  | .running => .ok ()
  | .halted => .error .notEnabledHalted
  | .faulted k => .error (.notEnabledFaulted k)

/-- Phases 1 and 2: the opcode byte at PC, which faults at 256 or more (R69), and the two operand bytes, always read
and never faulting (R70). All three are latched before anything changes (R72). -/
def latch (c : Config) (s : State) : Except FaultKind InstrBytes := do
  let ir ← memRead s.pc s
  return { ir := ir, a := operandFetch c (s.pc + 1) s, b := operandFetch c (s.pc + 2) s }

/-- The state with byte `v` placed at `addr`; an address with no cell takes none. -/
def State.placeByte (s : State) (addr : Nat) (v : Byte) : State :=
  if addr < memSize then s.setByte addr v else s

/-- The three bytes of a table word placed at PC, PC + 1 and PC + 2, where the next step fetches. -/
def placeWord (nbits w : Nat) (s : State) : State :=
  ((s.placeByte s.pc (tableWordByte nbits w 0)).placeByte (s.pc + 1) (tableWordByte nbits w 1)).placeByte (s.pc + 2)
    (tableWordByte nbits w 2)

end Sys2Proof.Machine
end

