-- ==== Sys2Proof/Machine/Load.lean ====
section
/-! DEFINITION. Loading an image (00_scope.md R9, 70_reset_and_hazards.md R113, R115). -/

namespace Sys2Proof.Machine

/-- The values of an image written from address `addr` upward, in order, each by `MemWrite` (R115). -/
def loadFrom : Nat → List Nat → State → Except FaultKind State
  | _, [], s => .ok s
  | addr, v :: rest, s => do
    let t ← memWrite addr v s
    loadFrom (addr + 1) rest t

/-- Construction and load: the state before the first step. Load happens once, on the freshly constructed state
(R113), so it is offered from `State.reset` only. An image of more than 256 values fails with OutOfBounds(mem, 256):
then there is no state and nothing runs (R115; decision D9). -/
def boot (image : List Nat) : Except FaultKind State := loadFrom loadBase image State.reset

end Sys2Proof.Machine
end

