-- ==== Sys2Proof/Machine/Step.lean ====
section
/-! DEFINITION. One step of the machine (40_cycle.md R74). -/

namespace Sys2Proof.Machine

/-- The step for given opcode parameters: enabled, latch, decode, execute or report (R68 to R74). -/
def stepWith (c : Config) (s : State) : Host.Outcome State Fault Refusal :=
  match stepEnabled s with
  | .error f => .fault f
  | .ok () =>
    match latch c s with
    | .error k => conclude s (.error k)
    | .ok w =>
      match decodeWith c w with
      | .ok i => exec i s
      | .error _ => execUnknown w.ir s

/-- The step of this machine: the spec's parameters with their defaults (entry 1). -/
def step (s : State) : Host.Outcome State Fault Refusal := stepWith machineConfig s

/-- The state with a table word stored where the next step fetches (PC, PC + 1, PC + 2); it stands for the load of
that instruction (entry 12). -/
def State.withFetchWord (s : State) (nbits w : Nat) : State := placeWord nbits w s

end Sys2Proof.Machine
end

