-- ==== Sys2Proof/Safety.lean ====
section
/-! DEFINITION. The terms claims are stated in: what a step fetches, how a run ends, and the invariant of the machine.
A safe run is one that ends HALTED: "HLT is the only way a run ends without a fault" (42_system.md R80). -/

namespace Sys2Proof.Machine

/-- A step is enabled and the opcode byte it fetches is `op` (40_cycle.md R68, R69). -/
def Fetches (op : Byte) (s : State) : Prop := s.status = .running ∧ memRead s.pc s = .ok op

/-- Operand-a of the next step (40_cycle.md R70). -/
def operandA (c : Config) (s : State) : Byte := operandFetch c (s.pc + 1) s

/-- Operand-b of the next step (40_cycle.md R70). -/
def operandB (c : Config) (s : State) : Byte := operandFetch c (s.pc + 2) s

/-- The status is FAULTED (10_state.md R26). -/
def State.isFaulted (s : State) : Bool :=
  match s.status with
  | .faulted _ => true
  | _ => false

/-- Every register not in `written` holds in `t` what it held in `s`. -/
def RegistersKept (written : List (Fin numRegs)) (s t : State) : Prop := ∀ r, r ∉ written → t.reg r = s.reg r

/-- Every address reads in `t` as it read in `s`. -/
def MemoryKept (s t : State) : Prop := ∀ addr, memRead addr t = memRead addr s

/-- Every address but `stored` reads in `t` as it read in `s`. -/
def MemoryKeptBut (stored : Nat) (s t : State) : Prop := ∀ addr, addr ≠ stored → memRead addr t = memRead addr s

/-- Status, output channel and diagnostic channel are in `t` what they were in `s`. -/
def ControlKept (s t : State) : Prop := t.status = s.status ∧ t.out = s.out ∧ t.diag = s.diag

/-- After `k` steps from `s`, all of them enabled, the state is `t`. -/
def RunsTo (k : Nat) (s t : State) : Prop := Host.Core.run Sys2Proof.core k s = .next t

/-- The run from `s` ends in HALTED: the safe end of a run (R75). -/
def HaltsCleanly (s : State) : Prop := ∃ k t, RunsTo k s t ∧ t.status = .halted

/-- The run from `s` ends in FAULTED(kind) (R75). -/
def EndsFaulted (kind : FaultKind) (s : State) : Prop := ∃ k t, RunsTo k s t ∧ t.status = .faulted kind

/-- The status fits the rest of the state: HALTED stands on an HLT byte (R80), FAULTED on what its kind says
(60_exceptions.md R95), and UnsupportedOperation does not occur (43_alu.md R84). -/
def StatusConsistent (s : State) : Prop :=
  match s.status with
  | .running => True
  | .halted => memRead s.pc s = .ok opHlt
  | .faulted (.outOfBoundsMem a) => a = s.pc ∧ memSize ≤ a
  | .faulted (.outOfBoundsReg i) => validReg i = false ∧ s.pc < memSize
  | .faulted (.unsupportedOperation _) => False

/-- What every step keeps: the memory is canonical, PC is at most 258 (10_state.md R24), the status fits the state,
each report names an earlier address and an unknown byte and no address twice (40_cycle.md R77), and the channels
cannot have received more than PC has passed (two bytes an output value, one a report; R25). -/
structure Inv (s : State) : Prop where
  memory_canonical : s.mem.wf = true
  pc_bound : s.pc ≤ 258
  status_consistent : StatusConsistent s
  reports_rising : s.diag.Pairwise (fun e f => e.pc < f.pc)
  reports_past : ∀ e ∈ s.diag, e.pc < s.pc ∧ e.pc < memSize ∧ e.ir ∉ machineConfig.opcodes
  channels_bounded : 2 * s.out.length + s.diag.length ≤ s.pc

end Sys2Proof.Machine
end

