-- ==== Sys2Proof/Certificates/Slice0/Obligations.lean ====
section
/-! DEFINITION. The statements for the provers. Each docstring names the rule of spec/ it formalises.
Statements that quantify over a `Config` with `c.wf = true` hold for every choice of the open opcode bytes that
00_scope.md R7 admits; `step` is `stepWith machineConfig`. A next state whose status is FAULTED is written out as the
state before with the new status: that a fault leaves everything else alone is the spec's own choice D4 (R73; entry 5),
so a statement with such a clause is not the source document's, and its basis is 'derived'. -/

open Sys2Proof Sys2Proof.Machine

/-! ### Reset and load -/

/-- The reset state is Table V, and after load the cells hold the image modulo 256 and everything else is still at reset
(R34, R39, R115). That R7 is SP and holds 0xF4 is the spec's own resolution C2 on its choice D1 (entry 4); the limit of
256 values and their storing modulo 256 at load are its choice D9 (entry 13). -/
def Obligations.ResetAndLoadedState : Prop :=
  ((∀ addr, addr < 256 → memRead addr State.reset = .ok 0) ∧ (∀ r : Fin 8, r ≠ 7 → State.reset.reg r = 0) ∧
    State.reset.reg 7 = 0xF4 ∧ State.reset.sp = 0xF4 ∧ State.reset.pc = 0 ∧ State.reset.status = .running ∧
    State.reset.out = [] ∧ State.reset.diag = []) ∧
  (∀ image : List Nat, image.length ≤ 256 → ∃ t, boot image = .ok t ∧
    (∀ addr, addr < 256 → memRead addr t = .ok (BitVec.ofNat 8 (image.getD addr 0))) ∧
    RegistersKept [] State.reset t ∧ t.pc = 0 ∧ t.status = .running ∧ t.out = [] ∧ t.diag = [])

/-- An image of more than 256 values fails to load, at address 256 (R115; the spec's own choice D9). -/
def Obligations.LongImageRefused : Prop :=
  ∀ image : List Nat, 256 < image.length → boot image = .error (.outOfBoundsMem 256)

/-! ### The memory and the register file as blocks -/

/-- The memory write contract (R39), over canonical memories, whose form it keeps; the canonical form is the model's own
choice of representation (entry 11, DESIGN CHOICE), of which R39 does not speak. -/
def Obligations.MemoryWriteContract : Prop :=
  ∀ (s : State) (addr v : Nat), s.mem.wf = true →
    (addr < 256 → ∃ t, memWrite addr v s = .ok t ∧ memRead addr t = .ok (BitVec.ofNat 8 (v % 256)) ∧
      MemoryKeptBut addr s t ∧ t.mem.wf = true ∧ RegistersKept [] s t ∧ t.pc = s.pc ∧ ControlKept s t) ∧
    (256 ≤ addr → memWrite addr v s = .error (.outOfBoundsMem addr))

/-- Memories in canonical form that agree on every address are equal data (entry 11; R36). -/
def Obligations.CanonicalMemoriesAreEqual : Prop :=
  ∀ m n : Memory, m.wf = true → n.wf = true → (∀ addr, addr < 256 → m.readByte addr = n.readByte addr) → m = n

/-- The register file contract: the whole byte is the index, 8 to 255 fail, values are stored modulo 256 (R18). -/
def Obligations.RegisterFileContract : Prop :=
  ∀ (s : State) (i : Byte) (v : Int),
    (i.toNat ≤ 7 → ∃ t x, regWrite i v s = .ok t ∧ regRead i t = .ok x ∧ (x.toNat : Int) = v % 256 ∧
      (∀ j, j ≠ i → regRead j t = regRead j s) ∧ MemoryKept s t ∧ t.pc = s.pc ∧ ControlKept s t) ∧
    (8 ≤ i.toNat → regRead i s = .error (.outOfBoundsReg i) ∧ regWrite i v s = .error (.outOfBoundsReg i))

/-! ### The instructions: completion, result, frame, fault, fetch -/

/-- LDI (R78). What a fault leaves is the spec's own choice D4 (entry 5). -/
def Obligations.LdiLoadsImmediate : Prop :=
  (∀ (s : State) (a imm : Byte) (ha : a.toNat < 8), ∃ t, exec (.ldi a imm) s = .next t ∧
    t.reg ⟨a.toNat, ha⟩ = imm ∧ t.pc = s.pc + 3 ∧
    RegistersKept [⟨a.toNat, ha⟩] s t ∧ MemoryKept s t ∧ ControlKept s t) ∧
  (∀ (s : State) (a imm : Byte), 8 ≤ a.toNat →
    exec (.ldi a imm) s = .next { s with status := .faulted (.outOfBoundsReg a) }) ∧
  (∀ (c : Config) (s : State), c.wf = true → Fetches 0x82 s →
    stepWith c s = exec (.ldi (operandA c s) (operandB c s)) s)

/-- PRN (R79). What a fault leaves is the spec's own choice D4 (entry 5). -/
def Obligations.PrnEmitsRegister : Prop :=
  (∀ (s : State) (a : Byte) (ha : a.toNat < 8), ∃ t, exec (.prn a) s = .next t ∧
    t.out = s.out ++ [s.reg ⟨a.toNat, ha⟩] ∧ t.pc = s.pc + 2 ∧
    RegistersKept [] s t ∧ MemoryKept s t ∧ t.status = s.status ∧ t.diag = s.diag) ∧
  (∀ (s : State) (a : Byte), 8 ≤ a.toNat →
    exec (.prn a) s = .next { s with status := .faulted (.outOfBoundsReg a) }) ∧
  (∀ (c : Config) (s : State), c.wf = true → Fetches 0x47 s → stepWith c s = exec (.prn (operandA c s)) s)

/-- HLT (R80), with "No step is enabled after HLT". -/
def Obligations.HltHalts : Prop :=
  (∀ s : State, ∃ t, exec .hlt s = .next t ∧ t.status = .halted ∧ t.pc = s.pc ∧
    RegistersKept [] s t ∧ MemoryKept s t ∧ t.out = s.out ∧ t.diag = s.diag ∧
    ∀ (c : Config) (u : State), stepWith c t ≠ .next u) ∧
  (∀ (c : Config) (s : State), c.wf = true → Fetches 0x01 s → stepWith c s = exec .hlt s)

/-- NOP (R81). -/
def Obligations.NopOnlyAdvancesPc : Prop :=
  (∀ s : State, ∃ t, exec .nop s = .next t ∧ t.pc = s.pc + 1 ∧
    RegistersKept [] s t ∧ MemoryKept s t ∧ ControlKept s t) ∧
  (∀ (c : Config) (s : State), c.wf = true → Fetches 0x00 s → stepWith c s = exec .nop s)

/-- MUL (R85). What a fault leaves is the spec's own choice D4 (entry 5), that `a` is checked before `b` its choice D11
(entry 10). -/
def Obligations.MulMultiplies : Prop :=
  (∀ (s : State) (a b : Byte) (ha : a.toNat < 8) (hb : b.toNat < 8), ∃ t, exec (.mul a b) s = .next t ∧
    (t.reg ⟨a.toNat, ha⟩).toNat = (s.reg ⟨a.toNat, ha⟩).toNat * (s.reg ⟨b.toNat, hb⟩).toNat % 256 ∧
    t.pc = s.pc + 3 ∧ RegistersKept [⟨a.toNat, ha⟩] s t ∧ MemoryKept s t ∧ ControlKept s t) ∧
  (∀ (s : State) (a b : Byte), 8 ≤ a.toNat →
    exec (.mul a b) s = .next { s with status := .faulted (.outOfBoundsReg a) }) ∧
  (∀ (s : State) (a b : Byte), a.toNat < 8 → 8 ≤ b.toNat →
    exec (.mul a b) s = .next { s with status := .faulted (.outOfBoundsReg b) }) ∧
  (∀ (c : Config) (s : State), c.wf = true → Fetches 0xA2 s →
    stepWith c s = exec (.mul (operandA c s) (operandB c s)) s)

/-- ADD (R86), for every admissible opcode byte `OP_ADD`. What a fault leaves is the spec's own choice D4 (entry 5), that
`a` is checked before `b` its choice D11 (entry 10). -/
def Obligations.AddAdds : Prop :=
  (∀ (s : State) (a b : Byte) (ha : a.toNat < 8) (hb : b.toNat < 8), ∃ t, exec (.add a b) s = .next t ∧
    (t.reg ⟨a.toNat, ha⟩).toNat = ((s.reg ⟨a.toNat, ha⟩).toNat + (s.reg ⟨b.toNat, hb⟩).toNat) % 256 ∧
    t.pc = s.pc + 3 ∧ RegistersKept [⟨a.toNat, ha⟩] s t ∧ MemoryKept s t ∧ ControlKept s t) ∧
  (∀ (s : State) (a b : Byte), 8 ≤ a.toNat →
    exec (.add a b) s = .next { s with status := .faulted (.outOfBoundsReg a) }) ∧
  (∀ (s : State) (a b : Byte), a.toNat < 8 → 8 ≤ b.toNat →
    exec (.add a b) s = .next { s with status := .faulted (.outOfBoundsReg b) }) ∧
  (∀ (c : Config) (s : State), c.wf = true → Fetches c.opAdd s →
    stepWith c s = exec (.add (operandA c s) (operandB c s)) s)

/-- PUSH (R89), for every admissible opcode byte `OP_PUSH`. The byte stored is register `a` as it is after the
decrement of SP, which is the register's old value for R0 to R6 and the new SP for R7 (the spec's own choices D1 and D16,
R93; entry 4). The stored byte's address is `pushAddress`, the function the meaning uses. What a fault leaves is D4. -/
def Obligations.PushStoresBelow : Prop :=
  (∀ (s : State) (a : Byte) (ha : a.toNat < 8), s.mem.wf = true → ∃ t, exec (.push a) s = .next t ∧
    pushAddress s = (s.sp.toNat + 255) % 256 ∧ t.sp.toNat = (s.sp.toNat + 255) % 256 ∧
    memRead (pushAddress s) t = .ok (t.reg ⟨a.toNat, ha⟩) ∧ MemoryKeptBut (pushAddress s) s t ∧
    t.pc = s.pc + 2 ∧ RegistersKept [7] s t ∧ ControlKept s t) ∧
  (∀ (s : State) (a : Byte), 8 ≤ a.toNat →
    exec (.push a) s = .next { s with status := .faulted (.outOfBoundsReg a) }) ∧
  (∀ (c : Config) (s : State), c.wf = true → Fetches c.opPush s → stepWith c s = exec (.push (operandA c s)) s)

/-- POP (R90), for every admissible opcode byte `OP_POP`. The result for R7 is the spec's own choice D16
(R93; entry 4), what a fault leaves D4 (entry 5). -/
def Obligations.PopLoadsAndRaises : Prop :=
  (∀ (s : State) (a : Byte) (ha : a.toNat < 8), ∃ t v, exec (.pop a) s = .next t ∧
    memRead s.sp.toNat s = .ok v ∧
    (a.toNat ≠ 7 → t.reg ⟨a.toNat, ha⟩ = v ∧ t.sp.toNat = (s.sp.toNat + 1) % 256) ∧
    (a.toNat = 7 → t.sp.toNat = (v.toNat + 1) % 256) ∧
    t.pc = s.pc + 2 ∧ RegistersKept [⟨a.toNat, ha⟩, 7] s t ∧ MemoryKept s t ∧ ControlKept s t) ∧
  (∀ (s : State) (a : Byte), 8 ≤ a.toNat →
    exec (.pop a) s = .next { s with status := .faulted (.outOfBoundsReg a) }) ∧
  (∀ (c : Config) (s : State), c.wf = true → Fetches c.opPop s → stepWith c s = exec (.pop (operandA c s)) s)

/-- The unknown-opcode arm (R82): a report and PC + 1, the status stays RUNNING. That the report is (PC, opcode byte) is
the spec's own choice D8 (entry 8). -/
def Obligations.UnknownOpcodeIsReported : Prop :=
  ∀ (c : Config) (s : State) (op : Byte), Fetches op s → op ∉ c.opcodes → ∃ t, stepWith c s = .next t ∧
    t.diag = s.diag ++ [{ pc := s.pc, ir := op }] ∧ t.pc = s.pc + 1 ∧ t.status = .running ∧ t.out = s.out ∧
    RegistersKept [] s t ∧ MemoryKept s t

/-- Exactly the instructions whose register operands are 0 to 7 complete; every other one takes OutOfBounds with the
first operand, in the order of the checks, that names no register (R58, R18; order and what a fault leaves are the
spec's own choices D11 and D4; entries 10 and 5). -/
def Obligations.ValidOperandsDecideCompletion : Prop :=
  ∀ (i : Instr) (s : State), s.status = .running → ∃ t, exec i s = .next t ∧
    (i.wf = true → t.pc = s.pc + i.pcAdvance ∧ t.status = if i = .hlt then .halted else .running) ∧
    (i.wf = false → ∃ j : Byte, 8 ≤ j.toNat ∧ i.registerOperands.find? (fun r => !validReg r) = some j ∧
      t = { s with status := .faulted (.outOfBoundsReg j) })

/-! ### Encoding and decoding -/

/-- Decoding is an exact match of the whole opcode byte against the table (R60). -/
def Obligations.DecodingIsExactMatch : Prop :=
  ∀ (c : Config) (w : InstrBytes), c.wf = true →
    ((∃ i, decodeWith c w = .ok i) ↔ w.ir ∈ c.opcodes) ∧
    (∀ i, decodeWith c w = .ok i → i.opcode c = w.ir) ∧
    (w.ir ∉ c.opcodes → decodeWith c w = .error (.unknownOpcode w.ir))

/-- The opcode table of this machine: eight different bytes, so 248 unknown ones. The bytes of ADD, PUSH and POP are
the spec's defaults, PRESUMED (entry 1; D5). -/
def Obligations.OpcodeTableOfTheMachine : Prop :=
  machineConfig.wf = true ∧
  machineConfig.opcodes = [0x00, 0x01, 0x47, 0x82, 0xA2, 0xA0, 0x45, 0x46] ∧
  ((List.range 256).filter fun n => BitVec.ofNat 8 n ∉ machineConfig.opcodes).length = 248

/-- For every admissible choice of the open opcode bytes the eight opcodes differ (R7). -/
def Obligations.AdmissibleOpcodesDiffer : Prop :=
  ∀ c : Config, c.wf = true ↔ c.opcodes.Nodup

/-- Words written out from the encodings of R78 to R81, R85, R86, R89, R90 decode to their instructions. The opcode bytes
of ADD, PUSH and POP are the spec's defaults, PRESUMED (entry 1; D5). -/
def Obligations.WrittenWordsDecode : Prop :=
  decode { ir := 0b10000010, a := 0b00000000, b := 0b00001000 } = .ok (.ldi 0 8) ∧
  decode { ir := 0b01000111, a := 0b00000000, b := 0b11111111 } = .ok (.prn 0) ∧
  decode { ir := 0b00000001, a := 0b11111111, b := 0b11111111 } = .ok .hlt ∧
  decode { ir := 0b10100010, a := 0b00000000, b := 0b00000001 } = .ok (.mul 0 1) ∧
  decode { ir := 0b00000000, a := 0b11111111, b := 0b00000001 } = .ok .nop ∧
  decode { ir := 0b10100000, a := 0b00000111, b := 0b00001000 } = .ok (.add 7 8) ∧
  decode { ir := 0b01000101, a := 0b00000011, b := 0b00000000 } = .ok (.push 3) ∧
  decode { ir := 0b01000110, a := 0b00000100, b := 0b00000000 } = .ok (.pop 4) ∧
  decode { ir := 0b11111111, a := 0b00000000, b := 0b00000000 } = .error (.unknownOpcode 0xFF)

/-- Decoding an encoded instruction gives it back, with every operand at every value and whatever bytes follow, for
every admissible choice of the open opcode bytes (R56, R57, R62). -/
def Obligations.DecodeOfEncode : Prop :=
  ∀ (c : Config) (i : Instr) (following : List Byte), c.wf = true →
    decodeWith c (latchList (encodeWith c i ++ following)) = .ok i

/-- The other direction: what decodes is the encoding of what it decodes to, over the bytes its format uses (R62). -/
def Obligations.EncodeOfDecode : Prop :=
  ∀ (c : Config) (w : InstrBytes) (i : Instr), decodeWith c w = .ok i →
    encodeWith c i = [w.ir, w.a, w.b].take i.length

/-- A pre-fetched byte that the format does not use has no effect on the instruction (R62). -/
def Obligations.UnusedOperandBytesIgnored : Prop :=
  ∀ (c : Config) (w x : InstrBytes) (i : Instr), decodeWith c w = .ok i →
    [x.ir, x.a, x.b].take i.length = [w.ir, w.a, w.b].take i.length → decodeWith c x = .ok i

/-! ### The step -/

/-- A step runs the instruction that the three bytes it latches decode to (R71, R74). -/
def Obligations.StepRunsDecodedInstruction : Prop :=
  ∀ (c : Config) (s : State) (w : InstrBytes) (i : Instr), s.status = .running → latch c s = .ok w →
    decodeWith c w = .ok i → stepWith c s = exec i s

/-- A step runs the instruction whose encoding lies in memory at PC, wherever it lies (R44, R45, R63). -/
def Obligations.StepRunsStoredInstruction : Prop :=
  ∀ (c : Config) (s : State) (i : Instr), c.wf = true → s.status = .running →
    (∀ k, k < i.length → memRead (s.pc + k) s = .ok ((encodeWith c i).getD k 0)) → stepWith c s = exec i s

/-- The word the host places is the instruction the next step runs (entry 12). -/
def Obligations.FetchWordIsRun : Prop :=
  ∀ (s : State) (nbits w : Nat) (i : Instr), s.status = .running → s.mem.wf = true → s.pc + 2 < 256 →
    decodeTableWord nbits w = some i → step (s.withFetchWord nbits w) = exec i (s.withFetchWord nbits w)

/-- A step is enabled exactly when the status is RUNNING (R68). -/
def Obligations.StepEnabledIffRunning : Prop :=
  ∀ (c : Config) (s : State), (∃ t, stepWith c s = .next t) ↔ s.status = .running

/-- Where no step is enabled the model's step answers a stop that names the status; this form is the model's own
(entry 6). A step is never refused. -/
def Obligations.StopsNameTheStatus : Prop :=
  ∀ (c : Config) (s : State),
    (s.status = .halted → stepWith c s = .fault .notEnabledHalted) ∧
    (∀ k, s.status = .faulted k → stepWith c s = .fault (.notEnabledFaulted k)) ∧
    (∀ r, stepWith c s ≠ .refused r)

/-- Phase 1: the opcode byte is the byte at PC; at 256 or more the step faults and nothing else changes (R69; the spec's
own choices D2 and D4, entries 3 and 5). -/
def Obligations.OpcodeFetch : Prop :=
  (∀ (c : Config) (s : State), s.status = .running → 256 ≤ s.pc →
    stepWith c s = .next { s with status := .faulted (.outOfBoundsMem s.pc) }) ∧
  (∀ (c : Config) (s : State), s.pc < 256 → ∃ w, latch c s = .ok w ∧ memRead s.pc s = .ok w.ir)

/-- Phase 2: the operands are the bytes at PC + 1 and PC + 2, and 0 above 255 (R70; the value 0 is the spec's own
decision D3, R41; entry 2). -/
def Obligations.OperandPrefetch : Prop :=
  ∀ (s : State) (w : InstrBytes), latch machineConfig s = .ok w →
    (s.pc + 1 < 256 → memRead (s.pc + 1) s = .ok w.a) ∧ (256 ≤ s.pc + 1 → w.a = 0) ∧
    (s.pc + 2 < 256 → memRead (s.pc + 2) s = .ok w.b) ∧ (256 ≤ s.pc + 2 → w.b = 0)

/-- By how much each step moves PC (R25). That a faulting instruction does not move it is the spec's own choice D4 (entry
5). -/
def Obligations.PcAdvanceOfEachOpcode : Prop :=
  ∀ (c : Config) (s t : State) (op : Byte), c.wf = true → Fetches op s → stepWith c s = .next t →
    (t.isFaulted = true → t.pc = s.pc) ∧
    (t.isFaulted = false →
      (op = 0x82 ∨ op = 0xA2 ∨ op = c.opAdd → t.pc = s.pc + 3) ∧
      (op = 0x47 ∨ op = c.opPush ∨ op = c.opPop → t.pc = s.pc + 2) ∧
      (op = 0x00 ∨ op ∉ c.opcodes → t.pc = s.pc + 1) ∧
      (op = 0x01 → t.pc = s.pc))

/-- The whole step is the pseudocode of R74, for every admissible choice of the open opcode bytes. The pseudocode takes
in the spec's own choices D1, D2, D4, D8, D11 and D16 (entries 3, 4, 5, 8, 10); D3 and D5 are the parameters of `c`. -/
def Obligations.StepIsThePseudocode : Prop :=
  ∀ (c : Config) (s : State), c.wf = true → s.status = .running →
    stepWith c s =
      (let raise (k : FaultKind) : Host.Outcome State Fault Refusal := .next { s with status := .faulted k }
       let ir := s.mem.readByte s.pc
       let a := if s.pc + 1 ≤ 255 then s.mem.readByte (s.pc + 1) else c.operandOor
       let b := if s.pc + 2 ≤ 255 then s.mem.readByte (s.pc + 2) else c.operandOor
       let sp := s.regs[7]
       if 256 ≤ s.pc then raise (.outOfBoundsMem s.pc)
       else if ir = 0x82 then
         (if ha : a.toNat < 8 then .next { s with regs := s.regs.set a.toNat b, pc := s.pc + 3 }
          else raise (.outOfBoundsReg a))
       else if ir = 0x47 then
         (if ha : a.toNat < 8 then .next { s with out := s.out ++ [s.regs[a.toNat]], pc := s.pc + 2 }
          else raise (.outOfBoundsReg a))
       else if ir = 0x01 then .next { s with status := .halted }
       else if ir = 0xA2 then
         (if ha : a.toNat < 8 then
           (if hb : b.toNat < 8 then
             .next { s with regs := s.regs.set a.toNat (s.regs[a.toNat] * s.regs[b.toNat]), pc := s.pc + 3 }
            else raise (.outOfBoundsReg b))
          else raise (.outOfBoundsReg a))
       else if ir = c.opAdd then
         (if ha : a.toNat < 8 then
           (if hb : b.toNat < 8 then
             .next { s with regs := s.regs.set a.toNat (s.regs[a.toNat] + s.regs[b.toNat]), pc := s.pc + 3 }
            else raise (.outOfBoundsReg b))
          else raise (.outOfBoundsReg a))
       else if ir = c.opPush then
         (if ha : a.toNat < 8 then
           .next { s with
             regs := s.regs.set 7 (sp - 1)
             mem := s.mem.writeByte (sp - 1).toNat (s.regs.set 7 (sp - 1))[a.toNat]
             pc := s.pc + 2 }
          else raise (.outOfBoundsReg a))
       else if ir = c.opPop then
         (if ha : a.toNat < 8 then
           .next { s with
             regs := (s.regs.set a.toNat (s.mem.readByte sp.toNat)).set 7
               ((s.regs.set a.toNat (s.mem.readByte sp.toNat))[7] + 1)
             pc := s.pc + 2 }
          else raise (.outOfBoundsReg a))
       else if ir = 0x00 then .next { s with pc := s.pc + 1 }
       else .next { s with diag := s.diag ++ [{ pc := s.pc, ir := ir }], pc := s.pc + 1 })

/-! ### Faults, status and the ALU block -/

/-- A step that faults changes nothing but the status (R73; the spec's own choice D4). -/
def Obligations.FaultsArePrecise : Prop :=
  ∀ (c : Config) (s t : State) (k : FaultKind), stepWith c s = .next t → t.status = .faulted k →
    t = { s with status := .faulted k }

/-- What a fault records and which instruction raises it (R95, R102; order of the checks: the spec's decision D11).
No step raises UnsupportedOperation (R84). -/
def Obligations.CausesOfFaults : Prop :=
  ∀ (c : Config) (s t : State) (k : FaultKind), c.wf = true → stepWith c s = .next t → t.status = .faulted k →
    (256 ≤ s.pc ∧ k = .outOfBoundsMem s.pc) ∨
    (∃ op, Fetches op s ∧ op ∈ [0x82, 0x47, 0xA2, c.opAdd, c.opPush, c.opPop] ∧ 8 ≤ (operandA c s).toNat ∧
      k = .outOfBoundsReg (operandA c s)) ∨
    (∃ op, Fetches op s ∧ op ∈ [0xA2, c.opAdd] ∧ (operandA c s).toNat < 8 ∧ 8 ≤ (operandB c s).toNat ∧
      k = .outOfBoundsReg (operandB c s))

/-- HALTED is reached by executing HLT and in no other way (R26, R80). -/
def Obligations.HaltedOnlyByHlt : Prop :=
  ∀ (c : Config) (s t : State), c.wf = true → stepWith c s = .next t →
    (t.status = .halted ↔ memRead s.pc s = .ok 0x01)

/-- The contract of the ALU block alone: the operation before the indices, `a` before `b`, only the target register
written (R83; the spec's own choice D6). -/
def Obligations.AluBlockContract : Prop :=
  ∀ (c : Config) (op a b : Byte) (s : State), c.wf = true →
    (op ≠ c.opAdd → op ≠ 0xA2 → aluApply c op a b s = .error (.unsupportedOperation op)) ∧
    (op = c.opAdd ∨ op = 0xA2 →
      (8 ≤ a.toNat → aluApply c op a b s = .error (.outOfBoundsReg a)) ∧
      (a.toNat < 8 → 8 ≤ b.toNat → aluApply c op a b s = .error (.outOfBoundsReg b)) ∧
      (∀ (ha : a.toNat < 8) (hb : b.toNat < 8), ∃ t, aluApply c op a b s = .ok t ∧
        (op = c.opAdd → (t.reg ⟨a.toNat, ha⟩).toNat =
          ((s.reg ⟨a.toNat, ha⟩).toNat + (s.reg ⟨b.toNat, hb⟩).toNat) % 256) ∧
        (op = 0xA2 → (t.reg ⟨a.toNat, ha⟩).toNat =
          (s.reg ⟨a.toNat, ha⟩).toNat * (s.reg ⟨b.toNat, hb⟩).toNat % 256) ∧
        RegistersKept [⟨a.toNat, ha⟩] s t ∧ t.mem = s.mem ∧ t.pc = s.pc ∧ ControlKept s t))

/-! ### Whole-machine rules -/

/-- During a run only PUSH writes memory, and only at its own address (R55). -/
def Obligations.OnlyPushWritesMemory : Prop :=
  ∀ (c : Config) (s t : State) (addr : Nat), c.wf = true → s.mem.wf = true → stepWith c s = .next t →
    memRead addr t ≠ memRead addr s → Fetches c.opPush s ∧ addr = pushAddress s

/-- A step appends at most one element to one of the two channels and removes none; PRN alone appends to `out`, an
unknown opcode alone to `diag` (R32; that the lists are two is the spec's own choice D15). -/
def Obligations.ChannelsOnlyGrow : Prop :=
  ∀ (c : Config) (s t : State), c.wf = true → stepWith c s = .next t →
    (t.out = s.out ∧ t.diag = s.diag) ∨
    (∃ v, Fetches 0x47 s ∧ t.out = s.out ++ [v] ∧ t.diag = s.diag) ∨
    (∃ op, Fetches op s ∧ op ∉ c.opcodes ∧ t.out = s.out ∧ t.diag = s.diag ++ [{ pc := s.pc, ir := op }])

/-- No instruction reads the channels: what they hold changes nothing but themselves (R32). -/
def Obligations.ChannelsAreNeverRead : Prop :=
  ∀ (c : Config) (s t : State) (out : List Byte) (diag : List Report), stepWith c s = .next t →
    ∃ newOut newDiag, t.out = s.out ++ newOut ∧ t.diag = s.diag ++ newDiag ∧
      stepWith c { s with out := out, diag := diag } = .next { t with out := out ++ newOut, diag := diag ++ newDiag }

/-- "No instruction reads PC as data" and none writes a computed value to it: from another PC an instruction has the
same effect, with PC moved by the same amount (R23). -/
def Obligations.PcIsNeverReadAsData : Prop :=
  ∀ (i : Instr) (s t : State) (p : Nat), exec i s = .next t →
    ∃ n, n ≤ 3 ∧ t.pc = s.pc + n ∧ exec i { s with pc := p } = .next { t with pc := p + n }

/-- LDI, PRN, HLT, MUL, ADD and NOP make no data access: over another memory they have the same effect and leave that
memory alone (R37). -/
def Obligations.NoDataAccessButByStack : Prop :=
  ∀ (i : Instr) (s t : State) (m : Memory), (∀ a, i ≠ .push a ∧ i ≠ .pop a) → exec i s = .next t →
    exec i { s with mem := m } = .next { t with mem := m }

/-- Every run ends: from any RUNNING state with PC at `p`, after at most 257 - p steps (one step above 255) the status
is HALTED or FAULTED; from PC = 0 that is 257 (R77; it rests on the spec's own choice D2). -/
def Obligations.EveryRunEnds : Prop :=
  ∀ s : State, s.status = .running →
    ∃ k t, k ≤ 257 - min s.pc 256 ∧ RunsTo k s t ∧ t.status ≠ .running

/-- Every step keeps the invariant (R24, R26, R32, R77, R84). Clauses of `Inv` rest on choices: the canonical memory on
the model's (entry 11, DESIGN CHOICE), PC at most 258 on the spec's D2 (entry 3), the FAULTED cases on D4 (entry 5), the
reports (PC, byte) in a list of their own on D8 and D15 (entry 8), the set of opcodes on the PRESUMED bytes of ADD, PUSH
and POP (entry 1; D5). -/
def Obligations.StepKeepsInv : Prop :=
  ∀ s t : State, Inv s → step s = .next t → Inv t

/-- The reset state meets the invariant (R34). Its canonical-memory clause is the model's choice (entry 11, DESIGN
CHOICE); the other choices in `Inv` are those named at `StepKeepsInv` (entries 1, 3, 5, 8). -/
def Obligations.ResetMeetsInv : Prop := Inv State.reset

/-- Every loaded image meets the invariant (R34, R115). That a loaded memory is canonical is the model's choice (entry
11, DESIGN CHOICE), the limits of the load are the spec's D9 (entry 13); the other choices in `Inv` are those named at
`StepKeepsInv` (entries 1, 3, 5, 8). -/
def Obligations.LoadedImageMeetsInv : Prop :=
  ∀ (image : List Nat) (t : State), boot image = .ok t → Inv t

/-! ### The stack, arithmetic and self-modification -/

/-- The stack round trip for registers other than R7, at every SP, 0 included (R91). The restriction comes from the
spec's own choice D1 (entry 4). -/
def Obligations.StackRoundTrip : Prop :=
  ∀ (s : State) (r q : Byte) (hr : r.toNat < 8) (hq : q.toNat < 8), s.mem.wf = true → r ≠ 7 → q ≠ 7 →
    ∃ t u, exec (.push r) s = .next t ∧ exec (.pop q) t = .next u ∧
      u.reg ⟨q.toNat, hq⟩ = s.reg ⟨r.toNat, hr⟩ ∧ u.sp = s.sp ∧
      memRead (pushAddress s) u = .ok (s.reg ⟨r.toNat, hr⟩)

/-- PUSH and POP with R7 as operand (R93; the spec's own choice D16). -/
def Obligations.StackPointerAsOperand : Prop :=
  (∀ s : State, s.mem.wf = true → ∃ t, exec (.push 7) s = .next t ∧ t.sp = s.sp - 1 ∧
    memRead (s.sp - 1).toNat t = .ok (s.sp - 1)) ∧
  (∀ s : State, ∃ t v, exec (.pop 7) s = .next t ∧ memRead s.sp.toNat s = .ok v ∧ t.sp = v + 1)

/-- After LDI r v1, ADD or MUL of r with a register that then holds v2 leaves (v1 op v2) mod 256 in r; the register
may be r itself (R87, first property of the document). -/
def Obligations.ArithmeticIsModulo256 : Prop :=
  ∀ (s : State) (r q v1 : Byte) (hr : r.toNat < 8) (hq : q.toNat < 8),
    ∃ t, exec (.ldi r v1) s = .next t ∧
      (∃ u, exec (.add r q) t = .next u ∧
        (u.reg ⟨r.toNat, hr⟩).toNat = (v1.toNat + (t.reg ⟨q.toNat, hq⟩).toNat) % 256) ∧
      (∃ u, exec (.mul r q) t = .next u ∧
        (u.reg ⟨r.toNat, hr⟩).toNat = v1.toNat * (t.reg ⟨q.toNat, hq⟩).toNat % 256)

/-- A PUSH that overwrites its own operand byte still pushes the register that the old byte names (R72, R119). The byte
stored is that register as it is after the decrement of SP (R89); that for R7 this is the new SP is the spec's own
choices D1 and D16 (R93; entry 4). -/
def Obligations.PushOverItsOwnOperand : Prop :=
  ∀ (c : Config) (s : State) (a : Byte) (ha : a.toNat < 8), c.wf = true → s.mem.wf = true → Fetches c.opPush s →
    memRead (s.pc + 1) s = .ok a → pushAddress s = s.pc + 1 →
    ∃ t, stepWith c s = .next t ∧ memRead (s.pc + 1) t = .ok (t.reg ⟨a.toNat, ha⟩) ∧ t.pc = s.pc + 2

/-- A byte stored by PUSH is what the very next step fetches at that address, as opcode or as operand (R53). The byte
stored is the operand's register as it is after the decrement of SP (R89); that for R7 this is the new SP is the spec's
own choices D1 and D16 (R93; entry 4). -/
def Obligations.NextFetchSeesStore : Prop :=
  ∀ (c : Config) (s t : State) (w : InstrBytes) (ha : (operandA c s).toNat < 8), c.wf = true → s.mem.wf = true →
    Fetches c.opPush s → stepWith c s = .next t → latch c t = .ok w →
    (pushAddress s = t.pc → w.ir = t.reg ⟨(operandA c s).toNat, ha⟩) ∧
    (pushAddress s = t.pc + 1 → w.a = t.reg ⟨(operandA c s).toNat, ha⟩) ∧
    (pushAddress s = t.pc + 2 → w.b = t.reg ⟨(operandA c s).toNat, ha⟩)

/-- `PC_MIN_BITS` is the least width of PC (R6, Table P; R24): no step takes PC out of that many bits, and from a state
that meets the invariant a step takes PC out of one bit fewer. It rests on the spec's own choice D2 (entry 3); `Inv` rests
on the choices named at `StepKeepsInv` (entries 1, 3, 5, 8, 11). -/
def Obligations.PcFitsItsLeastWidth : Prop :=
  (∀ s t : State, s.pc < 2 ^ machineConfig.pcMinBits → step s = .next t → t.pc < 2 ^ machineConfig.pcMinBits) ∧
  (∃ s t : State, Inv s ∧ s.pc < 2 ^ (machineConfig.pcMinBits - 1) ∧ step s = .next t ∧ t.status = .running ∧
    2 ^ (machineConfig.pcMinBits - 1) ≤ t.pc)
end

