-- ==== Sys2Proof/Laws/Decode.lean ====
section
/-! SUPPORT. The laws of the decoder: each opcode byte selects its own instruction under the constraint of
00_scope.md R7, and everything the decoder can answer. -/

namespace Sys2Proof

/-- The constraint of R7, one inequality at a time, in the order in which the decoder compares. -/
theorem Config.wf_iff {c : Config} : c.wf = true ↔
    (c.opAdd ≠ opNop ∧ c.opAdd ≠ opHlt ∧ c.opAdd ≠ opPrn ∧ c.opAdd ≠ opLdi ∧ c.opAdd ≠ opMul) ∧
    (c.opPush ≠ opNop ∧ c.opPush ≠ opHlt ∧ c.opPush ≠ opPrn ∧ c.opPush ≠ opLdi ∧ c.opPush ≠ opMul ∧
      c.opPush ≠ c.opAdd) ∧
    (c.opPop ≠ opNop ∧ c.opPop ≠ opHlt ∧ c.opPop ≠ opPrn ∧ c.opPop ≠ opLdi ∧ c.opPop ≠ opMul ∧
      c.opPop ≠ c.opAdd ∧ c.opPop ≠ c.opPush) := by
  simp [Config.wf]

theorem machineConfig_wf : machineConfig.wf = true := by decide

variable {c : Config} {w : InstrBytes}

theorem decodeWith_ldi (h : w.ir = opLdi) : decodeWith c w = .ok (.ldi w.a w.b) := by
  simp [decodeWith, h]

theorem decodeWith_prn (h : w.ir = opPrn) : decodeWith c w = .ok (.prn w.a) := by
  simp [decodeWith, h, show opPrn ≠ opLdi by decide]

theorem decodeWith_hlt (h : w.ir = opHlt) : decodeWith c w = .ok .hlt := by
  simp [decodeWith, h, show opHlt ≠ opLdi by decide, show opHlt ≠ opPrn by decide]

theorem decodeWith_mul (h : w.ir = opMul) : decodeWith c w = .ok (.mul w.a w.b) := by
  simp [decodeWith, h, show opMul ≠ opLdi by decide, show opMul ≠ opPrn by decide, show opMul ≠ opHlt by decide]

theorem decodeWith_add (hc : c.wf = true) (h : w.ir = c.opAdd) : decodeWith c w = .ok (.add w.a w.b) := by
  obtain ⟨⟨-, h1, h2, h3, h4⟩, -⟩ := Config.wf_iff.mp hc
  simp [decodeWith, h, h1, h2, h3, h4]

theorem decodeWith_push (hc : c.wf = true) (h : w.ir = c.opPush) : decodeWith c w = .ok (.push w.a) := by
  obtain ⟨-, ⟨-, h1, h2, h3, h4, h5⟩, -⟩ := Config.wf_iff.mp hc
  simp [decodeWith, h, h1, h2, h3, h4, h5]

theorem decodeWith_pop (hc : c.wf = true) (h : w.ir = c.opPop) : decodeWith c w = .ok (.pop w.a) := by
  obtain ⟨-, -, ⟨-, h1, h2, h3, h4, h5, h6⟩⟩ := Config.wf_iff.mp hc
  simp [decodeWith, h, h1, h2, h3, h4, h5, h6]

theorem decodeWith_nop (hc : c.wf = true) (h : w.ir = opNop) : decodeWith c w = .ok .nop := by
  obtain ⟨⟨h1, -⟩, ⟨h2, -⟩, ⟨h3, -⟩⟩ := Config.wf_iff.mp hc
  simp [decodeWith, h, show opNop ≠ opLdi by decide, show opNop ≠ opPrn by decide, show opNop ≠ opHlt by decide,
    show opNop ≠ opMul by decide, h1.symm, h2.symm, h3.symm]

theorem decodeWith_unknown (h : w.ir ∉ c.opcodes) : decodeWith c w = .error (.unknownOpcode w.ir) := by
  simp only [Config.opcodes, List.mem_cons, List.not_mem_nil, or_false, not_or] at h
  simp [decodeWith, h]

/-- Everything the decoder can answer: an instruction whose opcode is the byte read and whose operands are the bytes
its format uses, or a rejection of a byte that is in no row of the table. -/
theorem decodeWith_cases (c : Config) (w : InstrBytes) :
    (∃ i, decodeWith c w = .ok i ∧ i.opcode c = w.ir ∧ w.ir ∈ c.opcodes ∧
      (i.operands = [] ∨ i.operands = [w.a] ∨ i.operands = [w.a, w.b])) ∨
    (decodeWith c w = .error (.unknownOpcode w.ir) ∧ w.ir ∉ c.opcodes) := by
  by_cases h : w.ir ∈ c.opcodes
  · left
    unfold decodeWith
    split_ifs with h1 h2 h3 h4 h5 h6 h7 h8
    all_goals first
      | exact ⟨_, rfl, by simp [Instr.opcode, *], h, by simp [Instr.operands]⟩
      | exact absurd h (by simp [Config.opcodes, *])
  · exact .inr ⟨decodeWith_unknown h, h⟩

end Sys2Proof
end

