-- ==== Sys2Proof/Laws/State.lean ====
section
/-! SUPPORT. One lemma per field per update of the state, each true by rfl, so that no later proof unfolds a record
update. -/

namespace Sys2Proof.Machine

variable (s : State)

/-! ### setByte -/

@[simp] theorem State.setByte_mem (addr : Nat) (v : Byte) : (s.setByte addr v).mem = s.mem.writeByte addr v := rfl
@[simp] theorem State.setByte_regs (addr : Nat) (v : Byte) : (s.setByte addr v).regs = s.regs := rfl
@[simp] theorem State.setByte_pc (addr : Nat) (v : Byte) : (s.setByte addr v).pc = s.pc := rfl
@[simp] theorem State.setByte_status (addr : Nat) (v : Byte) : (s.setByte addr v).status = s.status := rfl
@[simp] theorem State.setByte_out (addr : Nat) (v : Byte) : (s.setByte addr v).out = s.out := rfl
@[simp] theorem State.setByte_diag (addr : Nat) (v : Byte) : (s.setByte addr v).diag = s.diag := rfl

/-! ### setReg -/

@[simp] theorem State.setReg_mem (r : Fin numRegs) (v : Byte) : (s.setReg r v).mem = s.mem := rfl
@[simp] theorem State.setReg_regs (r : Fin numRegs) (v : Byte) : (s.setReg r v).regs = s.regs.set r v := rfl
@[simp] theorem State.setReg_pc (r : Fin numRegs) (v : Byte) : (s.setReg r v).pc = s.pc := rfl
@[simp] theorem State.setReg_status (r : Fin numRegs) (v : Byte) : (s.setReg r v).status = s.status := rfl
@[simp] theorem State.setReg_out (r : Fin numRegs) (v : Byte) : (s.setReg r v).out = s.out := rfl
@[simp] theorem State.setReg_diag (r : Fin numRegs) (v : Byte) : (s.setReg r v).diag = s.diag := rfl

/-! ### setSp -/

@[simp] theorem State.setSp_mem (v : Int) : (s.setSp v).mem = s.mem := rfl
@[simp] theorem State.setSp_regs (v : Int) : (s.setSp v).regs = s.regs.set spIndex (wrap8 v) := rfl
@[simp] theorem State.setSp_pc (v : Int) : (s.setSp v).pc = s.pc := rfl
@[simp] theorem State.setSp_status (v : Int) : (s.setSp v).status = s.status := rfl
@[simp] theorem State.setSp_out (v : Int) : (s.setSp v).out = s.out := rfl
@[simp] theorem State.setSp_diag (v : Int) : (s.setSp v).diag = s.diag := rfl

/-! ### advancePc -/

@[simp] theorem State.advancePc_mem (n : Nat) : (s.advancePc n).mem = s.mem := rfl
@[simp] theorem State.advancePc_regs (n : Nat) : (s.advancePc n).regs = s.regs := rfl
@[simp] theorem State.advancePc_pc (n : Nat) : (s.advancePc n).pc = s.pc + n := rfl
@[simp] theorem State.advancePc_status (n : Nat) : (s.advancePc n).status = s.status := rfl
@[simp] theorem State.advancePc_out (n : Nat) : (s.advancePc n).out = s.out := rfl
@[simp] theorem State.advancePc_diag (n : Nat) : (s.advancePc n).diag = s.diag := rfl

/-! ### emitOut -/

@[simp] theorem State.emitOut_mem (v : Byte) : (s.emitOut v).mem = s.mem := rfl
@[simp] theorem State.emitOut_regs (v : Byte) : (s.emitOut v).regs = s.regs := rfl
@[simp] theorem State.emitOut_pc (v : Byte) : (s.emitOut v).pc = s.pc := rfl
@[simp] theorem State.emitOut_status (v : Byte) : (s.emitOut v).status = s.status := rfl
@[simp] theorem State.emitOut_out (v : Byte) : (s.emitOut v).out = s.out ++ [v] := rfl
@[simp] theorem State.emitOut_diag (v : Byte) : (s.emitOut v).diag = s.diag := rfl

/-! ### reportUnknown -/

@[simp] theorem State.reportUnknown_mem (p : Nat) (b : Byte) : (s.reportUnknown p b).mem = s.mem := rfl
@[simp] theorem State.reportUnknown_regs (p : Nat) (b : Byte) : (s.reportUnknown p b).regs = s.regs := rfl
@[simp] theorem State.reportUnknown_pc (p : Nat) (b : Byte) : (s.reportUnknown p b).pc = s.pc := rfl
@[simp] theorem State.reportUnknown_status (p : Nat) (b : Byte) : (s.reportUnknown p b).status = s.status := rfl
@[simp] theorem State.reportUnknown_out (p : Nat) (b : Byte) : (s.reportUnknown p b).out = s.out := rfl
@[simp] theorem State.reportUnknown_diag (p : Nat) (b : Byte) : (s.reportUnknown p b).diag = s.diag ++ [{ pc := p, ir := b }] := rfl

/-! ### halt -/

@[simp] theorem State.halt_mem : (s.halt).mem = s.mem := rfl
@[simp] theorem State.halt_regs : (s.halt).regs = s.regs := rfl
@[simp] theorem State.halt_pc : (s.halt).pc = s.pc := rfl
@[simp] theorem State.halt_status : (s.halt).status = .halted := rfl
@[simp] theorem State.halt_out : (s.halt).out = s.out := rfl
@[simp] theorem State.halt_diag : (s.halt).diag = s.diag := rfl

/-! ### takeFault -/

@[simp] theorem State.takeFault_mem (k : FaultKind) : (s.takeFault k).mem = s.mem := rfl
@[simp] theorem State.takeFault_regs (k : FaultKind) : (s.takeFault k).regs = s.regs := rfl
@[simp] theorem State.takeFault_pc (k : FaultKind) : (s.takeFault k).pc = s.pc := rfl
@[simp] theorem State.takeFault_status (k : FaultKind) : (s.takeFault k).status = .faulted k := rfl
@[simp] theorem State.takeFault_out (k : FaultKind) : (s.takeFault k).out = s.out := rfl
@[simp] theorem State.takeFault_diag (k : FaultKind) : (s.takeFault k).diag = s.diag := rfl

/-! ### decSp -/

@[simp] theorem State.decSp_mem : (s.decSp).mem = s.mem := rfl
@[simp] theorem State.decSp_pc : (s.decSp).pc = s.pc := rfl
@[simp] theorem State.decSp_status : (s.decSp).status = s.status := rfl
@[simp] theorem State.decSp_out : (s.decSp).out = s.out := rfl
@[simp] theorem State.decSp_diag : (s.decSp).diag = s.diag := rfl

/-! ### incSp -/

@[simp] theorem State.incSp_mem : (s.incSp).mem = s.mem := rfl
@[simp] theorem State.incSp_pc : (s.incSp).pc = s.pc := rfl
@[simp] theorem State.incSp_status : (s.incSp).status = s.status := rfl
@[simp] theorem State.incSp_out : (s.incSp).out = s.out := rfl
@[simp] theorem State.incSp_diag : (s.incSp).diag = s.diag := rfl

/-! ### Registers of an updated state -/

@[simp] theorem State.reg_setByte (addr : Nat) (v : Byte) (q : Fin numRegs) : (s.setByte addr v).reg q = s.reg q := rfl
@[simp] theorem State.reg_advancePc (n : Nat) (q : Fin numRegs) : (s.advancePc n).reg q = s.reg q := rfl
@[simp] theorem State.reg_emitOut (v : Byte) (q : Fin numRegs) : (s.emitOut v).reg q = s.reg q := rfl
@[simp] theorem State.reg_reportUnknown (p : Nat) (b : Byte) (q : Fin numRegs) : (s.reportUnknown p b).reg q = s.reg q := rfl
@[simp] theorem State.reg_halt (q : Fin numRegs) : (s.halt).reg q = s.reg q := rfl
@[simp] theorem State.reg_takeFault (k : FaultKind) (q : Fin numRegs) : (s.takeFault k).reg q = s.reg q := rfl

/-- A register write changes the register written and no other (10_state.md R18). -/
theorem State.reg_setReg (r q : Fin numRegs) (v : Byte) : (s.setReg r v).reg q = if q = r then v else s.reg q := by
  simp only [State.reg, State.setReg, Fin.getElem_fin, Vector.getElem_set, Fin.val_inj, eq_comm (a := r)]

@[simp] theorem State.reg_setReg_self (r : Fin numRegs) (v : Byte) : (s.setReg r v).reg r = v := by
  simp [State.reg_setReg]

@[simp] theorem State.reg_setReg_ne {r q : Fin numRegs} (h : q ≠ r) (v : Byte) :
    (s.setReg r v).reg q = s.reg q := by
  simp [State.reg_setReg, h]

end Sys2Proof.Machine
end

