-- ==== Sys2Proof/Laws/Memory.lean ====
section
/-! SUPPORT. The laws of the memory array (20_memory.md R38, R39): what a write changes, that it keeps the canonical
form, and that canonical memories with the same bytes are equal. -/

namespace Sys2Proof.Machine

theorem Memory.wfFrom_cons {lo a : Nat} {v : Byte} {rest : Memory} :
    Memory.wfFrom lo ((a, v) :: rest) = true ↔
      lo ≤ a ∧ a < memSize ∧ v ≠ unwrittenByte ∧ Memory.wfFrom (a + 1) rest = true := by
  simp [Memory.wfFrom, and_assoc]

theorem Memory.wfFrom_mono {lo lo' : Nat} {m : Memory} (hle : lo' ≤ lo) (h : Memory.wfFrom lo m = true) :
    Memory.wfFrom lo' m = true := by
  cases m with
  | nil => rfl
  | cons cell rest =>
    obtain ⟨hlo, hrest⟩ := Memory.wfFrom_cons.mp h
    exact Memory.wfFrom_cons.mpr ⟨hle.trans hlo, hrest⟩

/-- Below its first cell a canonical memory reads as reset left it. -/
theorem Memory.readByte_below {lo x : Nat} {m : Memory} (h : Memory.wfFrom lo m = true) (hx : x < lo) :
    m.readByte x = unwrittenByte := by
  induction m generalizing lo with
  | nil => rfl
  | cons cell rest ih =>
    obtain ⟨hlo, -, -, hrest⟩ := Memory.wfFrom_cons.mp h
    simp only [Memory.readByte, if_neg (show x ≠ cell.1 by omega)]
    exact ih hrest (by omega)

/-- Above the last address a canonical memory lists no cell. -/
theorem Memory.readByte_outside {lo x : Nat} {m : Memory} (h : Memory.wfFrom lo m = true) (hx : memSize ≤ x) :
    m.readByte x = unwrittenByte := by
  induction m generalizing lo with
  | nil => rfl
  | cons cell rest ih =>
    obtain ⟨-, ha, -, hrest⟩ := Memory.wfFrom_cons.mp h
    simp only [Memory.readByte, if_neg (show x ≠ cell.1 by omega)]
    exact ih hrest

theorem Memory.readByte_writeByte_from {lo : Nat} {m : Memory} (h : Memory.wfFrom lo m = true) (addr : Nat) (v : Byte)
    (x : Nat) : (m.writeByte addr v).readByte x = if x = addr then v else m.readByte x := by
  induction m generalizing lo with
  | nil =>
    by_cases hv : v = unwrittenByte <;> simp [Memory.writeByte, Memory.readByte, hv]
  | cons cell rest ih =>
    obtain ⟨a, w⟩ := cell
    obtain ⟨-, -, -, hrest⟩ := Memory.wfFrom_cons.mp h
    have below : ∀ y, y ≤ a → Memory.readByte rest y = unwrittenByte :=
      fun y hy => Memory.readByte_below hrest (Nat.lt_succ_of_le hy)
    rcases Nat.lt_trichotomy addr a with hlt | rfl | hgt
    · by_cases hv : v = unwrittenByte <;> by_cases hx : x = addr <;>
        simp [Memory.writeByte, Memory.readByte, hlt, hlt.ne, hv, hx, below addr hlt.le]
    · by_cases hv : v = unwrittenByte <;> by_cases hx : x = addr <;>
        simp [Memory.writeByte, Memory.readByte, hv, hx, below addr le_rfl]
    · by_cases hx : x = a
      · simp [Memory.writeByte, Memory.readByte, hx, hgt.ne, hgt.ne', hgt.not_gt]
      · simp [Memory.writeByte, Memory.readByte, hx, hgt.ne', hgt.not_gt, ih hrest]

/-- Read after write (R38, R39): the written cell gives the written value, every other cell is as before. -/
theorem Memory.readByte_writeByte {m : Memory} (h : m.wf = true) (addr : Nat) (v : Byte) (x : Nat) :
    (m.writeByte addr v).readByte x = if x = addr then v else m.readByte x :=
  Memory.readByte_writeByte_from h addr v x

theorem Memory.wfFrom_writeByte {lo addr : Nat} {m : Memory} {v : Byte} (h : Memory.wfFrom lo m = true)
    (hlo : lo ≤ addr) (haddr : addr < memSize) : Memory.wfFrom lo (m.writeByte addr v) = true := by
  induction m generalizing lo with
  | nil =>
    unfold Memory.writeByte
    split_ifs with hv
    · rfl
    · exact Memory.wfFrom_cons.mpr ⟨hlo, haddr, hv, rfl⟩
  | cons cell rest ih =>
    obtain ⟨a, w⟩ := cell
    obtain ⟨hla, ha, hw, hrest⟩ := Memory.wfFrom_cons.mp h
    unfold Memory.writeByte
    split_ifs with hlt hv heq hv
    · exact h
    · exact Memory.wfFrom_cons.mpr
        ⟨hlo, haddr, hv, Memory.wfFrom_cons.mpr ⟨hlt, ha, hw, hrest⟩⟩
    · exact Memory.wfFrom_mono (by omega) hrest
    · exact Memory.wfFrom_cons.mpr ⟨hla, ha, hv, hrest⟩
    · exact Memory.wfFrom_cons.mpr ⟨hla, ha, hw, ih hrest (by omega)⟩

/-- A write inside the address space keeps the canonical form. -/
theorem Memory.wf_writeByte {m : Memory} (h : m.wf = true) {addr : Nat} (haddr : addr < memSize) (v : Byte) :
    (m.writeByte addr v).wf = true :=
  Memory.wfFrom_writeByte h (Nat.zero_le _) haddr

theorem Memory.wf_reset : State.reset.mem.wf = true := rfl

/-- The unchecked write of the state: what every address reads as afterwards. -/
theorem State.readByte_setByte {s : State} (h : s.mem.wf = true) (addr : Nat) (v : Byte) (x : Nat) :
    (s.setByte addr v).mem.readByte x = if x = addr then v else s.mem.readByte x :=
  Memory.readByte_writeByte h addr v x

/-! ### The bounds-checked accesses -/

theorem memRead_of_lt {s : State} {addr : Nat} (h : addr < memSize) : memRead addr s = .ok (s.mem.readByte addr) := by
  simp [memRead, h]

theorem memRead_of_ge {s : State} {addr : Nat} (h : memSize ≤ addr) :
    memRead addr s = .error (.outOfBoundsMem addr) := by
  simp [memRead, h]

theorem memRead_eq_ok {s : State} {addr : Nat} {v : Byte} :
    memRead addr s = .ok v ↔ addr < memSize ∧ s.mem.readByte addr = v := by
  rcases Nat.lt_or_ge addr memSize with h | h
  · simp [memRead_of_lt h, h]
  · simp [memRead_of_ge h, h]

theorem memRead_eq_error {s : State} {addr : Nat} {k : FaultKind} :
    memRead addr s = .error k ↔ memSize ≤ addr ∧ k = .outOfBoundsMem addr := by
  rcases Nat.lt_or_ge addr memSize with h | h
  · simp [memRead_of_lt h, h]
  · simp [memRead_of_ge h, h, eq_comm]

theorem memWrite_of_lt {s : State} {addr : Nat} (h : addr < memSize) (v : Nat) :
    memWrite addr v s = .ok (s.setByte addr (wrap8 v)) := by
  simp [memWrite, h]

theorem memWrite_of_ge {s : State} {addr : Nat} (h : memSize ≤ addr) (v : Nat) :
    memWrite addr v s = .error (.outOfBoundsMem addr) := by
  simp [memWrite, h]

/-- Memories with the same cells answer every read alike. -/
theorem memRead_congr {s t : State} (h : t.mem = s.mem) (addr : Nat) : memRead addr t = memRead addr s := by
  simp only [memRead, h]

theorem operandFetch_of_lt {c : Config} {s : State} {addr : Nat} (h : addr < memSize) :
    operandFetch c addr s = s.mem.readByte addr := by
  simp [operandFetch, h]

theorem operandFetch_of_ge {c : Config} {s : State} {addr : Nat} (h : memSize ≤ addr) :
    operandFetch c addr s = c.operandOor := by
  simp [operandFetch, h]

end Sys2Proof.Machine
end

