-- ==== Sys2Proof/Laws/Operands.lean ====
section
/-! SUPPORT. The laws of the operand forms: reduction modulo 256, register indices, the stack pointer, the stack
accesses. -/

namespace Sys2Proof.Machine

/-! ### Reduction modulo 256 (10_state.md R19) -/

theorem wrap8_natCast (n : Nat) : wrap8 n = BitVec.ofNat 8 n := by
  simp [wrap8]

theorem wrap8_toNat (n : Nat) : (wrap8 n).toNat = n % 256 := by
  simp [wrap8_natCast]

@[simp] theorem wrap8_byte (v : Byte) : wrap8 (v.toNat : Int) = v := by
  simp [wrap8_natCast]

theorem wrap8_pred (v : Byte) : wrap8 ((v.toNat : Int) - 1) = v - 1 := by
  revert v; decide

theorem wrap8_succ (v : Byte) : wrap8 ((v.toNat : Int) + 1) = v + 1 := by
  revert v; decide

/-! ### Register indices (10_state.md R18) -/

theorem validReg_iff {i : Byte} : validReg i = true ↔ i.toNat < numRegs := by
  simp [validReg]

theorem regIndex_valid {i : Byte} (h : i.toNat < numRegs) : regIndex i = .ok ⟨i.toNat, h⟩ := by
  simp [regIndex, h]

theorem regIndex_invalid {i : Byte} (h : numRegs ≤ i.toNat) : regIndex i = .error (.outOfBoundsReg i) := by
  simp [regIndex, h]

/-- Everything an index check can answer. -/
theorem regIndex_cases (i : Byte) :
    (∃ h : i.toNat < numRegs, regIndex i = .ok ⟨i.toNat, h⟩) ∨
      (numRegs ≤ i.toNat ∧ regIndex i = .error (.outOfBoundsReg i)) := by
  rcases Nat.lt_or_ge i.toNat numRegs with h | h
  · exact .inl ⟨h, regIndex_valid h⟩
  · exact .inr ⟨h, regIndex_invalid h⟩

theorem regRead_valid {i : Byte} (h : i.toNat < numRegs) (s : State) : regRead i s = .ok (s.reg ⟨i.toNat, h⟩) := by
  simp only [regRead, regIndex_valid h]; rfl

theorem regRead_invalid {i : Byte} (h : numRegs ≤ i.toNat) (s : State) :
    regRead i s = .error (.outOfBoundsReg i) := by
  simp only [regRead, regIndex_invalid h]; rfl

theorem regWrite_valid {i : Byte} (h : i.toNat < numRegs) (v : Int) (s : State) :
    regWrite i v s = .ok (s.setReg ⟨i.toNat, h⟩ (wrap8 v)) := by
  simp only [regWrite, regIndex_valid h]; rfl

theorem regWrite_invalid {i : Byte} (h : numRegs ≤ i.toNat) (v : Int) (s : State) :
    regWrite i v s = .error (.outOfBoundsReg i) := by
  simp only [regWrite, regIndex_invalid h]; rfl

/-! ### The stack pointer (10_state.md R20, R22) -/

theorem State.decSp_eq (s : State) : s.decSp = s.setReg spIndex (s.sp - 1) := by
  simp [State.decSp, State.setSp, wrap8_pred]

theorem State.incSp_eq (s : State) : s.incSp = s.setReg spIndex (s.sp + 1) := by
  simp [State.incSp, State.setSp, wrap8_succ]

theorem State.reg_decSp (s : State) (q : Fin numRegs) : s.decSp.reg q = if q = spIndex then s.sp - 1 else s.reg q := by
  rw [State.decSp_eq, State.reg_setReg]

theorem State.reg_incSp (s : State) (q : Fin numRegs) : s.incSp.reg q = if q = spIndex then s.sp + 1 else s.reg q := by
  rw [State.incSp_eq, State.reg_setReg]

theorem State.sp_decSp (s : State) : s.decSp.sp = s.sp - 1 := by
  rw [State.sp, State.reg_decSp, if_pos rfl]

theorem State.sp_incSp (s : State) : s.incSp.sp = s.sp + 1 := by
  rw [State.sp, State.reg_incSp, if_pos rfl]

theorem pushAddress_eq (s : State) : pushAddress s = (s.sp - 1).toNat := by
  rw [pushAddress, State.sp_decSp]

/-- SP is a byte, so a stack access is never out of range (20_memory.md R43). -/
theorem pushAddress_lt (s : State) : pushAddress s < memSize := (s.decSp.sp).isLt

theorem popAddress_lt (s : State) : popAddress s < memSize := (s.sp).isLt

/-- Everything a push does; it cannot fail. -/
theorem stackPush_eq (r : Fin numRegs) (s : State) :
    stackPush r s = .ok (s.decSp.setByte (pushAddress s) (s.decSp.reg r)) := by
  rw [stackPush, memWrite_of_lt (pushAddress_lt s), wrap8_byte]

/-- Everything a pop does; it cannot fail. -/
theorem stackPop_eq (r : Fin numRegs) (s : State) :
    stackPop r s = .ok (s.setReg r (s.mem.readByte (popAddress s))).incSp := by
  rw [stackPop, memRead_of_lt (popAddress_lt s)]; rfl

end Sys2Proof.Machine
end

