-- ==== Sys2Proof/Laws/Exec.lean ====
section
/-! SUPPORT. One lemma per meaning and case: the state it gives where its register operands are valid, and the fault
it takes where one is not. `exec_cases` says once everything an instruction can do. -/

namespace Sys2Proof.Machine

variable (s : State)

theorem conclude_ok (t : State) : conclude s (.ok t) = .next t := rfl

theorem conclude_error (k : FaultKind) : conclude s (.error k) = .next (s.takeFault k) := rfl

theorem execNop_eq : execNop s = .next (s.advancePc 1) := rfl

theorem execHlt_eq : execHlt s = .next s.halt := rfl

theorem execUnknown_eq (ir : Byte) : execUnknown ir s = .next ((s.reportUnknown s.pc ir).advancePc 1) := rfl

theorem execPrn_valid {a : Byte} (h : a.toNat < numRegs) :
    execPrn a s = .next ((s.emitOut (s.reg ⟨a.toNat, h⟩)).advancePc 2) := by
  rw [execPrn, regRead_valid h]; rfl

theorem execPrn_invalid {a : Byte} (h : numRegs ≤ a.toNat) :
    execPrn a s = .next (s.takeFault (.outOfBoundsReg a)) := by
  rw [execPrn, regRead_invalid h]; rfl

theorem execLdi_valid {a : Byte} (imm : Byte) (h : a.toNat < numRegs) :
    execLdi a imm s = .next ((s.setReg ⟨a.toNat, h⟩ imm).advancePc 3) := by
  rw [execLdi, regWrite_valid h, wrap8_byte]; rfl

theorem execLdi_invalid {a : Byte} (imm : Byte) (h : numRegs ≤ a.toNat) :
    execLdi a imm s = .next (s.takeFault (.outOfBoundsReg a)) := by
  rw [execLdi, regWrite_invalid h]; rfl

/-! ### The ALU block (43_alu.md R83) -/

theorem aluOperation_add (c : Config) : aluOperation c c.opAdd = some .add := by
  simp [aluOperation]

theorem aluOperation_mul {c : Config} (hc : c.wf = true) : aluOperation c opMul = some .mul := by
  simp [aluOperation, (Config.wf_iff.mp hc).1.2.2.2.2.symm]

theorem aluOperation_none {c : Config} {op : Byte} (h1 : op ≠ c.opAdd) (h2 : op ≠ opMul) :
    aluOperation c op = none := by
  simp [aluOperation, h1, h2]

theorem aluApply_unsupported {c : Config} {op : Byte} (h : aluOperation c op = none) (a b : Byte) :
    aluApply c op a b s = .error (.unsupportedOperation op) := by
  simp only [aluApply, h]

theorem aluApply_invalid_a {c : Config} {op a : Byte} {o : AluOp} (h : aluOperation c op = some o)
    (ha : numRegs ≤ a.toNat) (b : Byte) : aluApply c op a b s = .error (.outOfBoundsReg a) := by
  simp only [aluApply, h, regRead_invalid ha]; rfl

theorem aluApply_invalid_b {c : Config} {op a b : Byte} {o : AluOp} (h : aluOperation c op = some o)
    (ha : a.toNat < numRegs) (hb : numRegs ≤ b.toNat) : aluApply c op a b s = .error (.outOfBoundsReg b) := by
  simp only [aluApply, h, regRead_valid ha, regRead_invalid hb]; rfl

theorem aluApply_valid {c : Config} {op a b : Byte} {o : AluOp} (h : aluOperation c op = some o)
    (ha : a.toNat < numRegs) (hb : b.toNat < numRegs) :
    aluApply c op a b s = .ok (s.setReg ⟨a.toNat, ha⟩
      (BitVec.ofNat 8 (aluResult o (s.reg ⟨a.toNat, ha⟩) (s.reg ⟨b.toNat, hb⟩)))) := by
  simp only [aluApply, h, regRead_valid ha, regRead_valid hb, ← wrap8_natCast, ← regWrite_valid ha]; rfl

theorem execMul_valid {a b : Byte} (ha : a.toNat < numRegs) (hb : b.toNat < numRegs) :
    execMul a b s = .next ((s.setReg ⟨a.toNat, ha⟩
      (BitVec.ofNat 8 (aluResult .mul (s.reg ⟨a.toNat, ha⟩) (s.reg ⟨b.toNat, hb⟩)))).advancePc 3) := by
  rw [execMul, aluApply_valid s (aluOperation_mul machineConfig_wf) ha hb]; rfl

theorem execMul_invalid_a {a : Byte} (b : Byte) (ha : numRegs ≤ a.toNat) :
    execMul a b s = .next (s.takeFault (.outOfBoundsReg a)) := by
  rw [execMul, aluApply_invalid_a s (aluOperation_mul machineConfig_wf) ha]; rfl

theorem execMul_invalid_b {a b : Byte} (ha : a.toNat < numRegs) (hb : numRegs ≤ b.toNat) :
    execMul a b s = .next (s.takeFault (.outOfBoundsReg b)) := by
  rw [execMul, aluApply_invalid_b s (aluOperation_mul machineConfig_wf) ha hb]; rfl

theorem execAdd_valid {a b : Byte} (ha : a.toNat < numRegs) (hb : b.toNat < numRegs) :
    execAdd a b s = .next ((s.setReg ⟨a.toNat, ha⟩
      (BitVec.ofNat 8 (aluResult .add (s.reg ⟨a.toNat, ha⟩) (s.reg ⟨b.toNat, hb⟩)))).advancePc 3) := by
  rw [execAdd, aluApply_valid s (aluOperation_add machineConfig) ha hb]; rfl

theorem execAdd_invalid_a {a : Byte} (b : Byte) (ha : numRegs ≤ a.toNat) :
    execAdd a b s = .next (s.takeFault (.outOfBoundsReg a)) := by
  rw [execAdd, aluApply_invalid_a s (aluOperation_add machineConfig) ha]; rfl

theorem execAdd_invalid_b {a b : Byte} (ha : a.toNat < numRegs) (hb : numRegs ≤ b.toNat) :
    execAdd a b s = .next (s.takeFault (.outOfBoundsReg b)) := by
  rw [execAdd, aluApply_invalid_b s (aluOperation_add machineConfig) ha hb]; rfl

/-! ### The stack instructions -/

theorem execPush_valid {a : Byte} (h : a.toNat < numRegs) :
    execPush a s = .next ((s.decSp.setByte (pushAddress s) (s.decSp.reg ⟨a.toNat, h⟩)).advancePc 2) := by
  simp only [execPush, regIndex_valid h, bind, Except.bind, stackPush_eq]; rfl

theorem execPush_invalid {a : Byte} (h : numRegs ≤ a.toNat) :
    execPush a s = .next (s.takeFault (.outOfBoundsReg a)) := by
  rw [execPush, regIndex_invalid h]; rfl

theorem execPop_valid {a : Byte} (h : a.toNat < numRegs) :
    execPop a s = .next ((s.setReg ⟨a.toNat, h⟩ (s.mem.readByte (popAddress s))).incSp.advancePc 2) := by
  simp only [execPop, regIndex_valid h, bind, Except.bind, stackPop_eq]; rfl

theorem execPop_invalid {a : Byte} (h : numRegs ≤ a.toNat) :
    execPop a s = .next (s.takeFault (.outOfBoundsReg a)) := by
  rw [execPop, regIndex_invalid h]; rfl

/-! ### Everything an instruction can do -/

/-- The effect of an instruction whose register operands are valid, as updates of the state. -/
inductive Completes (s : State) : Instr → State → Prop where
  | nop : Completes s .nop (s.advancePc 1)
  | hlt : Completes s .hlt s.halt
  | prn {a : Byte} (h : a.toNat < numRegs) :
      Completes s (.prn a) ((s.emitOut (s.reg ⟨a.toNat, h⟩)).advancePc 2)
  | ldi {a imm : Byte} (h : a.toNat < numRegs) :
      Completes s (.ldi a imm) ((s.setReg ⟨a.toNat, h⟩ imm).advancePc 3)
  | mul {a b : Byte} (ha : a.toNat < numRegs) (hb : b.toNat < numRegs) :
      Completes s (.mul a b) ((s.setReg ⟨a.toNat, ha⟩
        (BitVec.ofNat 8 (aluResult .mul (s.reg ⟨a.toNat, ha⟩) (s.reg ⟨b.toNat, hb⟩)))).advancePc 3)
  | add {a b : Byte} (ha : a.toNat < numRegs) (hb : b.toNat < numRegs) :
      Completes s (.add a b) ((s.setReg ⟨a.toNat, ha⟩
        (BitVec.ofNat 8 (aluResult .add (s.reg ⟨a.toNat, ha⟩) (s.reg ⟨b.toNat, hb⟩)))).advancePc 3)
  | push {a : Byte} (h : a.toNat < numRegs) :
      Completes s (.push a) ((s.decSp.setByte (pushAddress s) (s.decSp.reg ⟨a.toNat, h⟩)).advancePc 2)
  | pop {a : Byte} (h : a.toNat < numRegs) :
      Completes s (.pop a) ((s.setReg ⟨a.toNat, h⟩ (s.mem.readByte (popAddress s))).incSp.advancePc 2)

/-- The first register operand that names no register. -/
def firstInvalid (i : Instr) : Option Byte := i.registerOperands.find? (fun r => !validReg r)

theorem validReg_eq_false_iff {i : Byte} : validReg i = false ↔ numRegs ≤ i.toNat := by
  simp [validReg]

theorem invalid_of_firstInvalid {i : Instr} {j : Byte} (h : firstInvalid i = some j) : validReg j = false := by
  simpa using List.find?_some h

/-- The cases of an instruction with one register operand. -/
theorem cases_of_one {i : Instr} {a : Byte} (hi : i.registerOperands = [a])
    (hv : a.toNat < numRegs → ∃ t, exec i s = .next t ∧ Completes s i t)
    (hn : numRegs ≤ a.toNat → exec i s = .next (s.takeFault (.outOfBoundsReg a))) :
    (i.wf = true ∧ ∃ t, exec i s = .next t ∧ Completes s i t) ∨
      (i.wf = false ∧ ∃ j, firstInvalid i = some j ∧ exec i s = .next (s.takeFault (.outOfBoundsReg j))) := by
  rcases Nat.lt_or_ge a.toNat numRegs with h | h
  · exact .inl ⟨by simp [Instr.wf, hi, validReg_iff.mpr h], hv h⟩
  · have hf := validReg_eq_false_iff.mpr h
    exact .inr ⟨by simp [Instr.wf, hi, hf], a, by simp [firstInvalid, hi, hf], hn h⟩

/-- The cases of an instruction with two register operands, the first checked before the second. -/
theorem cases_of_two {i : Instr} {a b : Byte} (hi : i.registerOperands = [a, b])
    (hv : a.toNat < numRegs → b.toNat < numRegs → ∃ t, exec i s = .next t ∧ Completes s i t)
    (hna : numRegs ≤ a.toNat → exec i s = .next (s.takeFault (.outOfBoundsReg a)))
    (hnb : a.toNat < numRegs → numRegs ≤ b.toNat → exec i s = .next (s.takeFault (.outOfBoundsReg b))) :
    (i.wf = true ∧ ∃ t, exec i s = .next t ∧ Completes s i t) ∨
      (i.wf = false ∧ ∃ j, firstInvalid i = some j ∧ exec i s = .next (s.takeFault (.outOfBoundsReg j))) := by
  rcases Nat.lt_or_ge a.toNat numRegs with ha | ha
  · rcases Nat.lt_or_ge b.toNat numRegs with hb | hb
    · exact .inl ⟨by simp [Instr.wf, hi, validReg_iff.mpr ha, validReg_iff.mpr hb], hv ha hb⟩
    · have hf := validReg_eq_false_iff.mpr hb
      exact .inr ⟨by simp [Instr.wf, hi, hf], b, by simp [firstInvalid, hi, validReg_iff.mpr ha, hf], hnb ha hb⟩
  · have hf := validReg_eq_false_iff.mpr ha
    exact .inr ⟨by simp [Instr.wf, hi, hf], a, by simp [firstInvalid, hi, hf], hna ha⟩

/-- An instruction whose register operands are valid completes with its effect; any other takes
OutOfBounds(reg, index) for the first operand that is not valid, and has no other effect. -/
theorem exec_cases (i : Instr) :
    (i.wf = true ∧ ∃ t, exec i s = .next t ∧ Completes s i t) ∨
      (i.wf = false ∧ ∃ j, firstInvalid i = some j ∧ exec i s = .next (s.takeFault (.outOfBoundsReg j))) := by
  cases i with
  | nop => exact .inl ⟨rfl, _, execNop_eq s, .nop⟩
  | hlt => exact .inl ⟨rfl, _, execHlt_eq s, .hlt⟩
  | prn a => exact cases_of_one s rfl (fun h => ⟨_, execPrn_valid s h, .prn h⟩) (execPrn_invalid s)
  | ldi a imm => exact cases_of_one s rfl (fun h => ⟨_, execLdi_valid s imm h, .ldi h⟩) (execLdi_invalid s imm)
  | mul a b =>
    exact cases_of_two s rfl (fun ha hb => ⟨_, execMul_valid s ha hb, .mul ha hb⟩) (execMul_invalid_a s b)
      (execMul_invalid_b s)
  | add a b =>
    exact cases_of_two s rfl (fun ha hb => ⟨_, execAdd_valid s ha hb, .add ha hb⟩) (execAdd_invalid_a s b)
      (execAdd_invalid_b s)
  | push a => exact cases_of_one s rfl (fun h => ⟨_, execPush_valid s h, .push h⟩) (execPush_invalid s)
  | pop a => exact cases_of_one s rfl (fun h => ⟨_, execPop_valid s h, .pop h⟩) (execPop_invalid s)

/-! ### What a completed instruction leaves alone -/

/-- PC advances by the amount of 10_state.md R25. -/
theorem Completes.pc_eq {i : Instr} {t : State} (h : Completes s i t) : t.pc = s.pc + i.pcAdvance := by
  cases h <;> rfl

/-- Only HLT writes the status. -/
theorem Completes.status_eq {i : Instr} {t : State} (h : Completes s i t) :
    t.status = if i = .hlt then .halted else s.status := by
  cases h <;> rfl

/-- Only PUSH writes memory. -/
theorem Completes.mem_eq {i : Instr} {t : State} (h : Completes s i t) (hi : ∀ a, i ≠ .push a) : t.mem = s.mem := by
  cases h with
  | push _ => exact absurd rfl (hi _)
  | _ => rfl

/-- Only PRN writes to the output channel. -/
theorem Completes.out_eq {i : Instr} {t : State} (h : Completes s i t) (hi : ∀ a, i ≠ .prn a) : t.out = s.out := by
  cases h with
  | prn _ => exact absurd rfl (hi _)
  | _ => rfl

/-- No instruction of the opcode table reports. -/
theorem Completes.diag_eq {i : Instr} {t : State} (h : Completes s i t) : t.diag = s.diag := by
  cases h <;> rfl

/-- Every instruction keeps the memory canonical. -/
theorem Completes.mem_wf {i : Instr} {t : State} (h : Completes s i t) (hm : s.mem.wf = true) : t.mem.wf = true := by
  cases h with
  | push _ => exact Memory.wf_writeByte hm (pushAddress_lt s) _
  | _ => exact hm

end Sys2Proof.Machine
end

