-- ==== Sys2Proof/Laws/Load.lean ====
section
/-! SUPPORT. The law of the loader (70_reset_and_hazards.md R115): everything a load from an address can answer. -/

namespace Sys2Proof.Machine

/-- What a load of `image` from `addr` upward leaves: the image in its cells, everything else as before. -/
structure Loaded (addr : Nat) (image : List Nat) (s t : State) : Prop where
  wf : t.mem.wf = true
  cells : ∀ x, t.mem.readByte x =
    if addr ≤ x ∧ x < addr + image.length then BitVec.ofNat 8 (image.getD (x - addr) 0) else s.mem.readByte x
  regs : t.regs = s.regs
  pc : t.pc = s.pc
  status : t.status = s.status
  out : t.out = s.out
  diag : t.diag = s.diag

/-- A load that fits succeeds and leaves `Loaded`. -/
theorem loadFrom_fits (image : List Nat) : ∀ (addr : Nat) (s : State), s.mem.wf = true →
    addr + image.length ≤ memSize → ∃ t, loadFrom addr image s = .ok t ∧ Loaded addr image s t := by
  induction image with
  | nil => exact fun addr s hm _ => ⟨s, rfl, hm, fun x => by rw [if_neg (by simp)], rfl, rfl, rfl, rfl, rfl⟩
  | cons v rest ih =>
    intro addr s hm h
    rw [List.length_cons] at h
    have ha : addr < memSize := by omega
    obtain ⟨t, ht, L⟩ := ih (addr + 1) (s.setByte addr (wrap8 v)) (Memory.wf_writeByte hm ha _) (by omega)
    refine ⟨t, by rw [loadFrom, memWrite_of_lt ha]; exact ht, L.wf, fun x => ?_, L.regs, L.pc, L.status, L.out, L.diag⟩
    rw [L.cells, State.readByte_setByte hm, List.length_cons]
    by_cases hx : x = addr
    · simp [hx, wrap8_natCast]
    · by_cases hin : addr + 1 ≤ x ∧ x < addr + 1 + rest.length
      · rw [if_pos hin, if_pos (by omega), show x - addr = (x - (addr + 1)) + 1 by omega, List.getD_cons_succ]
      · rw [if_neg hin, if_neg hx, if_neg (by omega)]

/-- A load that does not fit fails at the first address with no cell. -/
theorem loadFrom_overflows (image : List Nat) : ∀ (addr : Nat) (s : State), addr ≤ memSize →
    memSize < addr + image.length → loadFrom addr image s = .error (.outOfBoundsMem memSize) := by
  induction image with
  | nil => intro addr s h h'; rw [List.length_nil] at h'; omega
  | cons v rest ih =>
    intro addr s h h'
    rw [List.length_cons] at h'
    rcases Nat.lt_or_ge addr memSize with ha | ha
    · rw [loadFrom, memWrite_of_lt ha]
      exact ih (addr + 1) (s.setByte addr (wrap8 v)) (by omega) (by omega)
    · obtain rfl : addr = memSize := by omega
      rw [loadFrom, memWrite_of_ge ha]; rfl

end Sys2Proof.Machine
end

