-- ==== Sys2Proof/Laws/PerInstr.lean ====
section
/-! SUPPORT. Statements made for every instruction, one lemma per constructor.
The family `EncodedShape`: for any opcode parameters the encoding is one to three bytes long, begins with the opcode
byte of the instruction's row, and has the length that PC advances by, except that HLT does not advance
(30_encoding.md R56, Table F; 10_state.md R25). -/

namespace Sys2Proof.Laws.EncodedShape

/-- The shape of an instruction's encoding. -/
def Statement (i : Instr) : Prop :=
  ∀ c : Config, (encodeWith c i).length = i.length ∧ 1 ≤ i.length ∧ i.length ≤ 3 ∧
    (encodeWith c i).head? = some (i.opcode c) ∧ i.opcode c ∈ c.opcodes ∧ (i = .hlt ∨ i.pcAdvance = i.length)

theorem nop : Statement .nop := fun c => by
  simp [encodeWith, Instr.length, Instr.operands, Instr.opcode, Config.opcodes, Instr.pcAdvance]

theorem hlt : Statement .hlt := fun c => by
  simp [encodeWith, Instr.length, Instr.operands, Instr.opcode, Config.opcodes]

theorem prn (a : Byte) : Statement (.prn a) := fun c => by
  simp [encodeWith, Instr.length, Instr.operands, Instr.opcode, Config.opcodes, Instr.pcAdvance]

theorem ldi (a imm : Byte) : Statement (.ldi a imm) := fun c => by
  simp [encodeWith, Instr.length, Instr.operands, Instr.opcode, Config.opcodes, Instr.pcAdvance]

theorem mul (a b : Byte) : Statement (.mul a b) := fun c => by
  simp [encodeWith, Instr.length, Instr.operands, Instr.opcode, Config.opcodes, Instr.pcAdvance]

theorem add (a b : Byte) : Statement (.add a b) := fun c => by
  simp [encodeWith, Instr.length, Instr.operands, Instr.opcode, Config.opcodes, Instr.pcAdvance]

theorem push (a : Byte) : Statement (.push a) := fun c => by
  simp [encodeWith, Instr.length, Instr.operands, Instr.opcode, Config.opcodes, Instr.pcAdvance]

theorem pop (a : Byte) : Statement (.pop a) := fun c => by
  simp [encodeWith, Instr.length, Instr.operands, Instr.opcode, Config.opcodes, Instr.pcAdvance]

end Sys2Proof.Laws.EncodedShape
end

