-- ==== Sys2Proof/Laws/Step.lean ====
section
/-! SUPPORT. The laws of the step (40_cycle.md R68 to R74): when it is enabled, what it latches, and once everything
it can do (`stepWith_next`). -/

namespace Sys2Proof.Machine

variable {c : Config} {s t : State}

theorem stepEnabled_running (h : s.status = .running) : stepEnabled s = .ok () := by
  simp only [stepEnabled, h]

theorem stepWith_halted (h : s.status = .halted) : stepWith c s = .fault .notEnabledHalted := by
  simp only [stepWith, stepEnabled, h]

theorem stepWith_faulted {k : FaultKind} (h : s.status = .faulted k) :
    stepWith c s = .fault (.notEnabledFaulted k) := by
  simp only [stepWith, stepEnabled, h]

/-- The three bytes a step latches where the opcode fetch is in range (R69, R70). -/
def fetchedBytes (c : Config) (s : State) : InstrBytes :=
  { ir := s.mem.readByte s.pc, a := operandFetch c (s.pc + 1) s, b := operandFetch c (s.pc + 2) s }

theorem latch_of_lt (h : s.pc < memSize) : latch c s = .ok (fetchedBytes c s) := by
  rw [latch, memRead_of_lt h]; rfl

theorem latch_of_ge (h : memSize ≤ s.pc) : latch c s = .error (.outOfBoundsMem s.pc) := by
  rw [latch, memRead_of_ge h]; rfl

/-- The inversion of the latch: it succeeds only in range, and then gives the fetched bytes. -/
theorem latch_eq_ok {w : InstrBytes} (h : latch c s = .ok w) : s.pc < memSize ∧ w = fetchedBytes c s := by
  rcases Nat.lt_or_ge s.pc memSize with hp | hp
  · rw [latch_of_lt hp] at h; cases h; exact ⟨hp, rfl⟩
  · rw [latch_of_ge hp] at h; cases h

theorem stepWith_fetchFault (h : s.status = .running) (hpc : memSize ≤ s.pc) :
    stepWith c s = .next (s.takeFault (.outOfBoundsMem s.pc)) := by
  simp only [stepWith, stepEnabled_running h, latch_of_ge hpc]; rfl

theorem stepWith_exec {w : InstrBytes} {i : Instr} (h : s.status = .running) (hw : latch c s = .ok w)
    (hi : decodeWith c w = .ok i) : stepWith c s = exec i s := by
  simp only [stepWith, stepEnabled_running h, hw, hi]

theorem stepWith_unknown {w : InstrBytes} {e : DecodeError} (h : s.status = .running) (hw : latch c s = .ok w)
    (hi : decodeWith c w = .error e) : stepWith c s = execUnknown w.ir s := by
  simp only [stepWith, stepEnabled_running h, hw, hi]

/-- The bytes of a table word placed at PC are the bytes the next step fetches. -/
theorem fetchedBytes_withFetchWord (hm : s.mem.wf = true) (hp : s.pc + 2 < memSize) (nbits w : Nat) :
    (s.withFetchWord nbits w).pc = s.pc ∧ (s.withFetchWord nbits w).status = s.status ∧
      fetchedBytes c (s.withFetchWord nbits w) =
        { ir := tableWordByte nbits w 0, a := tableWordByte nbits w 1, b := tableWordByte nbits w 2 } := by
  have h0 : s.pc < memSize := by omega
  have h1 : s.pc + 1 < memSize := by omega
  have m0 := Memory.wf_writeByte hm h0 (tableWordByte nbits w 0)
  have m1 := Memory.wf_writeByte m0 h1 (tableWordByte nbits w 1)
  simp only [State.withFetchWord, placeWord, State.placeByte, if_pos h0, if_pos h1, if_pos hp]
  simp only [fetchedBytes, State.setByte_pc, State.setByte_status, operandFetch_of_lt h1, operandFetch_of_lt hp,
    State.setByte_mem, Memory.readByte_writeByte m1, Memory.readByte_writeByte m0, Memory.readByte_writeByte hm]
  simp

/-- Everything a step that answers a next state did. -/
inductive Stepped (c : Config) (s : State) : State → Prop where
  /-- The opcode fetch was out of range (R69). -/
  | fetchFault (hpc : memSize ≤ s.pc) : Stepped c s (s.takeFault (.outOfBoundsMem s.pc))
  /-- An instruction completed. -/
  | complete {i : Instr} {t : State} (hpc : s.pc < memSize) (hop : i.opcode c = s.mem.readByte s.pc)
      (hi : decodeWith c (fetchedBytes c s) = .ok i) (hwf : i.wf = true) (ht : Completes s i t) : Stepped c s t
  /-- An instruction named a register that does not exist (R95b). -/
  | regFault {i : Instr} {j : Byte} (hpc : s.pc < memSize) (hop : i.opcode c = s.mem.readByte s.pc)
      (hi : decodeWith c (fetchedBytes c s) = .ok i) (hwf : i.wf = false) (hj : firstInvalid i = some j) :
      Stepped c s (s.takeFault (.outOfBoundsReg j))
  /-- The opcode byte was unknown (R82). -/
  | unknown (hpc : s.pc < memSize) (hop : s.mem.readByte s.pc ∉ c.opcodes) :
      Stepped c s ((s.reportUnknown s.pc (s.mem.readByte s.pc)).advancePc 1)

/-- While the status is RUNNING a step answers a next state, and it is one of the four of `Stepped`. -/
theorem stepWith_running (c : Config) (h : s.status = .running) : ∃ t, stepWith c s = .next t ∧ Stepped c s t := by
  rcases Nat.lt_or_ge s.pc memSize with hpc | hpc
  · have hw := latch_of_lt (c := c) hpc
    rcases decodeWith_cases c (fetchedBytes c s) with ⟨i, hi, hop, -, -⟩ | ⟨hi, hop⟩
    · rw [stepWith_exec h hw hi]
      rcases exec_cases s i with ⟨hwf, t, ht, hc⟩ | ⟨hwf, j, hj, ht⟩
      · exact ⟨t, ht, .complete hpc hop hi hwf hc⟩
      · exact ⟨_, ht, .regFault hpc hop hi hwf hj⟩
    · exact ⟨_, stepWith_unknown h hw hi, .unknown hpc hop⟩
  · exact ⟨_, stepWith_fetchFault h hpc, .fetchFault hpc⟩

/-- The inversion of a step: it answers a next state only from RUNNING, and then one of the four of `Stepped`. -/
theorem stepWith_next (h : stepWith c s = .next t) : s.status = .running ∧ Stepped c s t := by
  have hr : s.status = .running := by
    match hs : s.status with
    | .running => rfl
    | .halted => rw [stepWith_halted hs] at h; cases h
    | .faulted k => rw [stepWith_faulted hs] at h; cases h
  obtain ⟨t', ht', hc⟩ := stepWith_running c hr
  rw [ht'] at h
  cases h
  exact ⟨hr, hc⟩

end Sys2Proof.Machine
end

