-- ==== Sys2Proof/Laws/Run.lean ====
section
/-! SUPPORT. Runs of the machine, one step at a time. -/

namespace Sys2Proof.Machine

theorem runsTo_zero (s : State) : RunsTo 0 s s := rfl

/-- A run of one more step: the step, then the run from where it leads. -/
theorem runsTo_succ {k : Nat} {s t u : State} (h : step s = .next t) (hr : RunsTo k t u) : RunsTo (k + 1) s u := by
  simp only [RunsTo, Host.Core.run, Sys2Proof.core, h] at hr ⊢
  exact hr

/-- A step that leaves the status RUNNING raises PC by 1 to 3 (10_state.md R25). -/
theorem Stepped.pc_rises {c : Config} {s t : State} (h : Stepped c s t) (ht : t.status = .running) :
    s.pc < memSize ∧ s.pc < t.pc ∧ t.pc ≤ s.pc + 3 := by
  cases h with
  | fetchFault => cases ht
  | regFault => cases ht
  | unknown hpc => exact ⟨hpc, Nat.lt_succ_self _, Nat.add_le_add_left (by decide) _⟩
  | @complete i _ hpc hop hi hwf hc =>
    have hne : i ≠ .hlt := by
      rintro rfl
      have := hc.status_eq
      rw [ht] at this
      cases this
    rw [hc.pc_eq]
    cases i with
    | hlt => exact absurd rfl hne
    | _ => exact ⟨hpc, Nat.lt_add_of_pos_right (by simp [Instr.pcAdvance]), Nat.add_le_add_left (by simp [Instr.pcAdvance]) _⟩

end Sys2Proof.Machine
end

