-- ==== Sys2Proof/Tests/Slice0.lean ====
section
/-! SUPPORT. The model's own tests. The expected results come from spec/: the vectors of 95_test_vectors.md by their
names (L1, Q2, ...) or the rule cited. The section on witnesses shows, for every obligation with hypotheses, concrete
inputs that meet them together, each clause at a boundary value. -/

namespace Sys2Proof.Machine

/-! ### Helpers -/

/-- The registers at reset (R34). -/
def regs0 : Vector Byte numRegs := #v[0, 0, 0, 0, 0, 0, 0, 0xF4]

/-- Bytes placed from `addr` upward. -/
def placeBytes : Nat → List Byte → State → State
  | _, [], s => s
  | addr, v :: rest, s => placeBytes (addr + 1) rest (s.placeByte addr v)

/-- A state with these bytes at PC and these registers, the rest as at reset. -/
def at_ (pc : Nat) (bytes : List Byte) (regs : Vector Byte numRegs := regs0) : State :=
  placeBytes pc bytes { State.reset with pc := pc, regs := regs }

/-- The next state of an outcome. -/
def nextOf (o : Host.Outcome State Fault Refusal) : Option State :=
  match o with
  | .next t => some t
  | .fault _ => none
  | .refused _ => none

/-- The state or the kind of a block operation's answer. -/
def okOf {α : Type} (x : Except FaultKind α) : Option α :=
  match x with
  | .ok v => some v
  | .error _ => none

/-! ### WellFormed: each check refuses an ill-formed term (R58) -/

theorem test_wf_prn_refuses : (Instr.prn 8).wf = false := by decide
theorem test_wf_ldi_refuses : (Instr.ldi 8 0).wf = false := by decide
theorem test_wf_mul_refuses_a : (Instr.mul 8 0).wf = false := by decide
theorem test_wf_mul_refuses_b : (Instr.mul 0 255).wf = false := by decide
theorem test_wf_add_refuses_a : (Instr.add 9 0).wf = false := by decide
theorem test_wf_add_refuses_b : (Instr.add 0 9).wf = false := by decide
theorem test_wf_push_refuses : (Instr.push 8).wf = false := by decide
theorem test_wf_pop_refuses : (Instr.pop 128).wf = false := by decide
theorem test_wf_accepts : (Instr.ldi 7 255).wf ∧ (Instr.mul 7 7).wf ∧ Instr.nop.wf ∧ Instr.hlt.wf := by decide

/-- R7: an open opcode byte may be neither a given one nor one of the other two. -/
theorem test_config_wf_refuses :
    ({ machineConfig with opAdd := 0xA2 } : Config).wf = false ∧
    ({ machineConfig with opPush := 0xA0 } : Config).wf = false ∧
    ({ machineConfig with opPop := 0x45 } : Config).wf = false := by decide

/-- A memory out of order, with an address twice, with an address above 255, or with a cell of 0 is not canonical. -/
theorem test_memory_wf_refuses :
    Memory.wf [(2, 1), (1, 1)] = false ∧ Memory.wf [(1, 1), (1, 1)] = false ∧ Memory.wf [(256, 1)] = false ∧
    Memory.wf [(1, 0)] = false := by decide

/-! ### Decoding: one word of every constructor, bit by bit (30_encoding.md R59, R62; first byte leftmost) -/

theorem test_decode_nop : decode ⟨0b00000000, 0b11111111, 0b00000001⟩ = .ok .nop := by decide
theorem test_decode_hlt : decode ⟨0b00000001, 0b00000111, 0b00000000⟩ = .ok .hlt := by decide
theorem test_decode_prn : decode ⟨0b01000111, 0b00000101, 0b11111111⟩ = .ok (.prn 5) := by decide
theorem test_decode_ldi : decode ⟨0b10000010, 0b00000001, 0b10000000⟩ = .ok (.ldi 1 128) := by decide
theorem test_decode_mul : decode ⟨0b10100010, 0b00000010, 0b00000001⟩ = .ok (.mul 2 1) := by decide
theorem test_decode_add : decode ⟨0b10100000, 0b00000001, 0b00000110⟩ = .ok (.add 1 6) := by decide
theorem test_decode_push : decode ⟨0b01000101, 0b00000011, 0b00000100⟩ = .ok (.push 3) := by decide
theorem test_decode_pop : decode ⟨0b01000110, 0b00000100, 0b00000011⟩ = .ok (.pop 4) := by decide
/-- The whole operand byte is the operand: no bit of it is dropped (R58). -/
theorem test_decode_operand_whole : decode ⟨0b01000111, 0b10001000, 0b00000000⟩ = .ok (.prn 0x88) := by decide
/-- X3, X7: next to a known opcode, with the ALU bit set or not, a byte is unknown. -/
theorem test_decode_unknown :
    decode ⟨0b10100001, 0, 1⟩ = .error (.unknownOpcode 0xA1) ∧ decode ⟨0b00000010, 0, 1⟩ = .error (.unknownOpcode 2) := by
  decide
/-- The bytes of `LDI R1, 128`, opcode first. -/
theorem test_encode_ldi : encode (.ldi 1 128) = [0b10000010, 0b00000001, 0b10000000] := by decide
/-- The table word of `MUL R2, R1`: first byte lowest. -/
theorem test_tableWord_mul : decodeTableWord 24 0b00000001_00000010_10100010 = some (.mul 2 1) := by decide
/-- A table word of the opcode byte alone: operand bytes 0. -/
theorem test_tableWord_short : decodeTableWord 8 0xFFFF82 = some (.ldi 0 0) := by decide

/-! ### One step of every instruction -/

/-- L2. -/
theorem test_ldi : nextOf (step (at_ 0 [0x82, 0x05, 0xFF])) =
    some { at_ 0 [0x82, 0x05, 0xFF] with regs := #v[0, 0, 0, 0, 0, 0xFF, 0, 0xF4], pc := 3 } := by decide
/-- L7: the second operand is pre-fetched from address 256 as 0. -/
theorem test_ldi_top : nextOf (step (at_ 254 [0x82, 0x05] #v[0, 0, 0, 0, 0, 0x33, 0, 0xF4])) =
    some (at_ 254 [0x82, 0x05] |> fun s => { s with pc := 257 }) := by decide
/-- Q2: 255, not -1. -/
theorem test_prn : nextOf (step (at_ 0 [0x47, 0x02] #v[0, 0, 0xFF, 0, 0, 0, 0, 0xF4])) =
    some { at_ 0 [0x47, 0x02] #v[0, 0, 0xFF, 0, 0, 0, 0, 0xF4] with out := [255], pc := 2 } := by decide
/-- Q4: the index is not reduced modulo 8. -/
theorem test_prn_fault : nextOf (step (at_ 0 [0x47, 0x08])) =
    some { at_ 0 [0x47, 0x08] with status := .faulted (.outOfBoundsReg 8) } := by decide
/-- H3. -/
theorem test_hlt : nextOf (step (at_ 255 [0x01])) = some { at_ 255 [0x01] with status := .halted } := by decide
/-- H5. -/
theorem test_hlt_terminal : step { at_ 5 [0x01] with status := .halted } = .fault .notEnabledHalted := rfl
/-- N-2. -/
theorem test_nop : nextOf (step (at_ 255 [0x00])) = some { at_ 255 [0x00] with pc := 256 } := by decide
/-- M9: 40000 mod 256. -/
theorem test_mul : nextOf (step (at_ 0 [0xA2, 0x00, 0x00] #v[200, 0, 0, 0, 0, 0, 0, 0xF4])) =
    some { at_ 0 [0xA2, 0x00, 0x00] #v[64, 0, 0, 0, 0, 0, 0, 0xF4] with pc := 3 } := by decide
/-- M12: `a` is checked before `b`. -/
theorem test_mul_fault : nextOf (step (at_ 0 [0xA2, 0x08, 0x09])) =
    some { at_ 0 [0xA2, 0x08, 0x09] with status := .faulted (.outOfBoundsReg 8) } := by decide
/-- A-1. -/
theorem test_add : nextOf (step (at_ 0 [0xA0, 0x00, 0x01] #v[255, 2, 0, 0, 0, 0, 0, 0xF4])) =
    some { at_ 0 [0xA0, 0x00, 0x01] #v[1, 2, 0, 0, 0, 0, 0, 0xF4] with pc := 3 } := by decide
/-- A-7: R7 is the stack pointer. -/
theorem test_add_sp : nextOf (step (at_ 0 [0xA0, 0x07, 0x07])) =
    some { at_ 0 [0xA0, 0x07, 0x07] #v[0, 0, 0, 0, 0, 0, 0, 0xE8] with pc := 3 } := by decide
/-- PU7: the push overwrites its own operand byte. -/
theorem test_push_own_operand :
    nextOf (step (at_ 0x10 [0x45, 0x02] #v[0, 0, 0x77, 0, 0, 0, 0, 0x12])) =
    some { at_ 0x10 [0x45, 0x77] #v[0, 0, 0x77, 0, 0, 0, 0, 0x11] with pc := 0x12 } := by decide
/-- PU5: pushes the decremented SP. -/
theorem test_push_sp : nextOf (step (at_ 0 [0x45, 0x07])) =
    some { (at_ 0 [0x45, 0x07] #v[0, 0, 0, 0, 0, 0, 0, 0xF3]).placeByte 0xF3 0xF3 with pc := 2 } := by decide
/-- PO2: SP wraps upward. -/
theorem test_pop_wraps :
    nextOf (step ((at_ 0 [0x46, 0x01] #v[0, 0, 0, 0, 0, 0, 0, 0xFF]).placeByte 0xFF 0x5A)) =
    some { (at_ 0 [0x46, 0x01] #v[0, 0x5A, 0, 0, 0, 0, 0, 0]).placeByte 0xFF 0x5A with pc := 2 } := by decide
/-- PO4: the value loaded into R7, then incremented. -/
theorem test_pop_sp : nextOf (step ((at_ 0 [0x46, 0x07]).placeByte 0xF4 0x10)) =
    some { (at_ 0 [0x46, 0x07] #v[0, 0, 0, 0, 0, 0, 0, 0x11]).placeByte 0xF4 0x10 with pc := 2 } := by decide
/-- X3: not sent to the ALU. -/
theorem test_unknown : nextOf (step (at_ 0 [0xA1, 0x00, 0x01] #v[5, 3, 0, 0, 0, 0, 0, 0xF4])) =
    some { at_ 0 [0xA1, 0x00, 0x01] #v[5, 3, 0, 0, 0, 0, 0, 0xF4] with diag := [⟨0, 0xA1⟩], pc := 1 } := by decide
/-- X6. -/
theorem test_unknown_top : nextOf (step (at_ 255 [0xFF])) =
    some { at_ 255 [0xFF] with diag := [⟨255, 0xFF⟩], pc := 256 } := by decide
/-- F-3. -/
theorem test_fetch_fault : nextOf (step { State.reset with pc := 258 }) =
    some { State.reset with pc := 258, status := .faulted (.outOfBoundsMem 258) } := by decide
/-- F-5. -/
theorem test_faulted_terminal (k : FaultKind) :
    step { State.reset with status := .faulted k } = .fault (.notEnabledFaulted k) := rfl
/-- 95_test_vectors.md, ALU block alone: the operation is checked before the indices. -/
theorem test_alu_unsupported : aluApply machineConfig 0xA1 9 9 State.reset = .error (.unsupportedOperation 0xA1) := rfl
/-- R115: each value is stored modulo 256, from address 0. -/
theorem test_load_mod : (okOf (boot [0x182, 7])).map State.mem = some [(0, 0x82), (1, 7)] := by decide
/-- R39: a write of 0 leaves the canonical form. -/
theorem test_write_zero : Memory.writeByte [(3, 1), (5, 2)] 3 0 = [(5, 2)] := by decide
/-- The host's word at reset is run by the next step. -/
theorem test_withFetchWord : nextOf (step (State.reset.withFetchWord 24 0x080082)) =
    some { at_ 0 [0x82, 0x00, 0x08] #v[8, 0, 0, 0, 0, 0, 0, 0xF4] with pc := 3 } := by decide

/-! ### Witnesses: the hypotheses of the obligations can be met

Where several obligations share their hypotheses, one theorem serves them, and names them. -/

/-- ResetAndLoadedState: the longest image that loads; LongImageRefused: the shortest that does not. -/
theorem witness_image_lengths :
    (List.replicate 256 300 : List Nat).length ≤ 256 ∧ 256 < (List.replicate 257 300 : List Nat).length := by
  simp only [List.length_replicate]; decide

/-- ResetAndLoadedState, second clause, and LoadedImageMeetsInv: an image that loads, and what its
first, last and next cell hold. -/
theorem witness_image_loads : ∃ t, boot [0x82, 0, 8] = .ok t ∧ memRead 0 t = .ok 0x82 ∧ memRead 2 t = .ok 8 ∧
    memRead 3 t = .ok 0 := ⟨_, rfl, rfl, rfl, rfl⟩

/-- MemoryWriteContract: a canonical memory, address 255 in the first clause and 256 in the second. -/
theorem witness_memory_write : (at_ 255 [9]).mem.wf = true ∧ 255 < 256 ∧ 256 ≤ 256 ∧
    (okOf (memWrite 255 300 (at_ 255 [9]))).map State.mem = some [(255, 44)] ∧
    okOf (memWrite 256 300 (at_ 255 [9])) = none := by decide

/-- CanonicalMemoriesAreEqual: two memories that agree, built in two ways. -/
theorem witness_canonical : Memory.wf (Memory.writeByte (Memory.writeByte [] 255 1) 0 2) = true ∧
    Memory.wf (Memory.writeByte (Memory.writeByte [] 0 2) 255 1) = true ∧
    ∀ addr, addr < 256 → Memory.readByte (Memory.writeByte (Memory.writeByte [] 255 1) 0 2) addr =
      Memory.readByte (Memory.writeByte (Memory.writeByte [] 0 2) 255 1) addr :=
  ⟨by decide, by decide, fun _ _ => rfl⟩

/-- The register operand clauses of RegisterFileContract, ArithmeticIsModulo256, StackRoundTrip and of LDI, PRN, MUL, ADD,
PUSH, POP: 7 is the last valid index, 8 the first invalid one. -/
theorem witness_index_boundary : (7 : Byte).toNat ≤ 7 ∧ (7 : Byte).toNat < 8 ∧ 8 ≤ (8 : Byte).toNat ∧
    (6 : Byte) ≠ 7 ∧ 8 ≤ (255 : Byte).toNat := by decide

/-- RegisterFileContract: a write of -1 to register 7, and index 8. -/
theorem witness_register_file : (okOf (regWrite 7 (-1) State.reset)).map (fun t => okOf (regRead 7 t)) = some (some 255) ∧
    regRead 8 State.reset = .error (.outOfBoundsReg 8) ∧ regWrite 8 1 State.reset = .error (.outOfBoundsReg 8) :=
  ⟨rfl, rfl, rfl⟩

theorem witness_config : machineConfig.wf = true := by decide

/-- Another admissible choice of the open opcode bytes, and one that is not (AdmissibleOpcodesDiffer). -/
theorem witness_other_config :
    ({ opAdd := 0xFF, opPush := 0x02, opPop := 0xA3, pcMinBits := 9, operandOor := 0 } : Config).wf = true ∧
    ({ opAdd := 0xFF, opPush := 0x02, opPop := 0x02, pcMinBits := 9, operandOor := 0 } : Config).wf = false := by decide

/-- `Fetches` for every opcode, at the last address of memory, and an unknown one (the fetch clauses of LDI, PRN, HLT,
NOP, MUL, ADD, PUSH, POP; UnknownOpcodeIsReported; PcAdvanceOfEachOpcode; PushOverItsOwnOperand). -/
theorem witness_fetches_ldi : Fetches 0x82 (at_ 255 [0x82]) := ⟨rfl, rfl⟩
theorem witness_fetches_prn : Fetches 0x47 (at_ 255 [0x47]) := ⟨rfl, rfl⟩
theorem witness_fetches_hlt : Fetches 0x01 (at_ 255 [0x01]) := ⟨rfl, rfl⟩
theorem witness_fetches_nop : Fetches 0x00 (at_ 255 [0x00]) := ⟨rfl, rfl⟩
theorem witness_fetches_mul : Fetches 0xA2 (at_ 255 [0xA2]) := ⟨rfl, rfl⟩
theorem witness_fetches_add : Fetches machineConfig.opAdd (at_ 255 [0xA0]) := ⟨rfl, rfl⟩
theorem witness_fetches_push : Fetches machineConfig.opPush (at_ 255 [0x45]) := ⟨rfl, rfl⟩
theorem witness_fetches_pop : Fetches machineConfig.opPop (at_ 255 [0x46]) := ⟨rfl, rfl⟩
theorem witness_fetches_unknown : Fetches 0xFF (at_ 255 [0xFF]) ∧ (0xFF : Byte) ∉ machineConfig.opcodes :=
  ⟨⟨rfl, rfl⟩, by decide⟩

/-- Completion of every instruction at its boundary operands (register 7, and for the stack SP = 0 and SP = 255). -/
theorem witness_completes_ldi : ∃ t, exec (.ldi 7 0xFF) State.reset = .next t ∧ t.reg 7 = 0xFF ∧ t.pc = 3 :=
  ⟨_, rfl, rfl, rfl⟩
theorem witness_completes_prn : ∃ t, exec (.prn 7) State.reset = .next t ∧ t.out = [0xF4] ∧ t.pc = 2 :=
  ⟨_, rfl, rfl, rfl⟩
theorem witness_completes_hlt : ∃ t, exec .hlt State.reset = .next t ∧ t.status = .halted ∧ t.pc = 0 :=
  ⟨_, rfl, rfl, rfl⟩
theorem witness_completes_nop : ∃ t, exec .nop State.reset = .next t ∧ t.pc = 1 := ⟨_, rfl, rfl⟩
theorem witness_completes_mul : ∃ t, exec (.mul 7 7) State.reset = .next t ∧ t.reg 7 = 0x90 ∧ t.pc = 3 :=
  ⟨_, rfl, rfl, rfl⟩
theorem witness_completes_add : ∃ t, exec (.add 0 7) State.reset = .next t ∧ t.reg 0 = 0xF4 ∧ t.pc = 3 :=
  ⟨_, rfl, rfl, rfl⟩
theorem witness_completes_push : (at_ 0 [] #v[0x5A, 0, 0, 0, 0, 0, 0, 0]).mem.wf = true ∧
    ∃ t, exec (.push 0) (at_ 0 [] #v[0x5A, 0, 0, 0, 0, 0, 0, 0]) = .next t ∧ t.sp = 255 ∧ t.mem = [(255, 0x5A)] :=
  ⟨rfl, _, rfl, rfl, rfl⟩
theorem witness_completes_pop :
    ∃ t, exec (.pop 6) (at_ 255 [0x46] #v[0, 0, 0, 0, 0, 0, 0, 255]) = .next t ∧ t.sp = 0 ∧ t.reg 6 = 0x46 :=
  ⟨_, rfl, rfl, rfl⟩

/-- ValidOperandsDecideCompletion: both clauses. -/
theorem witness_valid_operands : State.reset.status = .running ∧ (Instr.mul 7 7).wf = true ∧ (Instr.mul 7 8).wf = false := by
  decide

/-- DecodingIsExactMatch, EncodeOfDecode, UnusedOperandBytesIgnored: a word that decodes, the same with other unused
bytes, and one that does not decode. -/
theorem witness_decode : decodeWith machineConfig ⟨0x47, 3, 0⟩ = .ok (.prn 3) ∧
    [(0x47 : Byte), 3, 0xFF].take (Instr.prn 3).length = [0x47, 3, 0].take (Instr.prn 3).length ∧
    (0xFF : Byte) ∉ machineConfig.opcodes := by decide

/-- StepRunsDecodedInstruction, OperandPrefetch, OpcodeFetch: at PC = 253 both operands are in memory. -/
theorem witness_latch_253 : (at_ 253 [0x82, 1, 0x2A]).status = .running ∧
    latch machineConfig (at_ 253 [0x82, 1, 0x2A]) = .ok ⟨0x82, 1, 0x2A⟩ ∧ 253 + 2 < 256 ∧
    decodeWith machineConfig ⟨0x82, 1, 0x2A⟩ = .ok (.ldi 1 0x2A) := ⟨rfl, rfl, by decide, rfl⟩
/-- OperandPrefetch at PC = 254: the second operand is not in memory; at PC = 255: neither is. -/
theorem witness_latch_top : latch machineConfig (at_ 254 [0x82, 5]) = .ok ⟨0x82, 5, 0⟩ ∧ 256 ≤ 254 + 2 ∧
    latch machineConfig (at_ 255 [0x82]) = .ok ⟨0x82, 0, 0⟩ ∧ 256 ≤ 255 + 1 := ⟨rfl, by decide, rfl, by decide⟩
/-- OpcodeFetch: the first PC that faults. -/
theorem witness_fetch_256 : ({ State.reset with pc := 256 } : State).status = .running ∧
    256 ≤ ({ State.reset with pc := 256 } : State).pc := by decide

/-- StepRunsStoredInstruction: the encoding of `PUSH R3` in the last two bytes of memory. -/
theorem witness_stored : (at_ 254 [0x45, 3]).status = .running ∧ ∀ k, k < (Instr.push 3).length →
    memRead ((at_ 254 [0x45, 3]).pc + k) (at_ 254 [0x45, 3]) = .ok ((encodeWith machineConfig (.push 3)).getD k 0) := by
  refine ⟨rfl, fun k hk => ?_⟩
  match k, hk with
  | 0, _ => rfl
  | 1, _ => rfl

/-- FetchWordIsRun at reset, and at the highest PC it speaks of. -/
theorem witness_fetchWord : State.reset.status = .running ∧ State.reset.mem.wf = true ∧ State.reset.pc + 2 < 256 ∧
    (at_ 253 []).pc + 2 < 256 ∧ decodeTableWord 24 0x0900A2 = some (.mul 0 9) := by decide

/-- StepEnabledIffRunning, StopsNameTheStatus: each status. -/
theorem witness_enabled : State.reset.status = .running ∧ ({ State.reset with status := .halted } : State).status = .halted ∧
    ({ State.reset with status := .faulted (.outOfBoundsMem 256) } : State).status = .faulted (.outOfBoundsMem 256) := by
  decide

/-- PcAdvanceOfEachOpcode: a step that completes and one that faults. -/
theorem witness_pcAdvance : ((nextOf (step (at_ 255 [0x82]))).map fun t => (t.isFaulted, t.pc)) = some (false, 258) ∧
    ((nextOf (step (at_ 0 [0x82, 8]))).map fun t => (t.isFaulted, t.pc)) = some (true, 0) := by decide

/-- FaultsArePrecise, CausesOfFaults: a step that faults for each of the three causes. -/
theorem witness_faults : (nextOf (step { State.reset with pc := 256 })).map State.status = some (.faulted (.outOfBoundsMem 256)) ∧
    (nextOf (step (at_ 0 [0x45, 8]))).map State.status = some (.faulted (.outOfBoundsReg 8)) ∧
    (nextOf (step (at_ 0 [0xA0, 7, 255]))).map State.status = some (.faulted (.outOfBoundsReg 255)) := by decide

/-- HaltedOnlyByHlt: a step to HALTED and a step that does not halt. -/
theorem witness_halted : (nextOf (step (at_ 255 [0x01]))).map State.status = some .halted ∧
    (nextOf (step (at_ 0 [0x82, 0, 1]))).map State.status = some .running := by decide

/-- AluBlockContract: an unsupported identifier, and the two supported ones. -/
theorem witness_alu : (0xA1 : Byte) ≠ machineConfig.opAdd ∧ (0xA1 : Byte) ≠ 0xA2 ∧
    (okOf (aluApply machineConfig machineConfig.opAdd 7 7 State.reset)).map State.sp = some 0xE8 ∧
    (okOf (aluApply machineConfig 0xA2 7 7 State.reset)).map State.sp = some 0x90 := by decide

/-- OnlyPushWritesMemory: a step that changes memory. -/
theorem witness_push_changes : machineConfig.wf = true ∧ (at_ 0 [0x45, 7]).mem.wf = true ∧
    (nextOf (step (at_ 0 [0x45, 7]))).map (fun t => t.mem.readByte 0xF3) = some 0xF3 ∧
    (at_ 0 [0x45, 7]).mem.readByte 0xF3 = 0 := by decide

/-- ChannelsOnlyGrow, ChannelsAreNeverRead: steps that append to `out`, to `diag`, and to neither. -/
theorem witness_channels : ((nextOf (step (at_ 0 [0x47, 7]))).map fun t => (t.out, t.diag)) = some ([0xF4], []) ∧
    ((nextOf (step (at_ 0 [0xFF]))).map fun t => (t.out, t.diag)) = some ([], [⟨0, 0xFF⟩]) ∧
    ((nextOf (step State.reset)).map fun t => (t.out, t.diag)) = some ([], []) := by decide

/-- PcIsNeverReadAsData, NoDataAccessButByStack: an instruction that completes and is neither PUSH nor POP. -/
theorem witness_no_data_access : (∀ a, Instr.ldi 0 1 ≠ .push a ∧ Instr.ldi 0 1 ≠ .pop a) ∧
    ∃ t, exec (.ldi 0 1) State.reset = .next t :=
  ⟨fun _ => ⟨Instr.noConfusion, Instr.noConfusion⟩, _, rfl⟩

/-- EveryRunEnds: a run from PC = 256 ends in the one step that the bound leaves. -/
theorem witness_run_ends : ∃ t, 1 ≤ 257 - min 256 256 ∧ RunsTo 1 { State.reset with pc := 256 } t ∧
    t.status = .faulted (.outOfBoundsMem 256) := ⟨_, by decide, rfl, rfl⟩

/-- StepKeepsInv: the reset state meets the invariant and takes a step. -/
theorem witness_inv : Inv State.reset ∧ ∃ t, step State.reset = .next t :=
  ⟨⟨rfl, Nat.zero_le _, trivial, .nil, nofun, Nat.le_refl _⟩, _, rfl⟩

/-- PcFitsItsLeastWidth: a step (LDI at address 255, L8) that raises PC past 255, to the largest PC there is. -/
theorem witness_pc_width : (at_ 255 [0x82]).pc < 2 ^ machineConfig.pcMinBits ∧
    (nextOf (step (at_ 255 [0x82]))).map State.pc = some 258 := by decide

/-- StackRoundTrip at SP = 0 with registers 6 and 0. -/
theorem witness_round_trip : (6 : Byte) ≠ 7 ∧ (0 : Byte) ≠ 7 ∧ (at_ 0 [] #v[0, 0, 0, 0, 0, 0, 0x5A, 0]).mem.wf = true ∧
    ((nextOf (exec (.push 6) (at_ 0 [] #v[0, 0, 0, 0, 0, 0, 0x5A, 0]))).bind fun t =>
      (nextOf (exec (.pop 0) t)).map fun u => (u.reg 0, u.sp)) = some (0x5A, 0) := by decide

/-- StackPointerAsOperand at the wrap of SP: PUSH R7 with SP = 0 and POP R7 of 0xFF. -/
theorem witness_sp_operand : (at_ 0 [] #v[0, 0, 0, 0, 0, 0, 0, 0]).mem.wf = true ∧
    (nextOf (exec (.push 7) (at_ 0 [] #v[0, 0, 0, 0, 0, 0, 0, 0]))).map (fun t => (t.sp, t.mem)) = some (255, [(255, 255)]) ∧
    (nextOf (exec (.pop 7) (State.reset.placeByte 0xF4 0xFF))).map State.sp = some 0 := by decide

/-- PushOverItsOwnOperand: PU7. -/
theorem witness_push_own_operand : Fetches machineConfig.opPush (at_ 0x10 [0x45, 0x02] #v[0, 0, 0x77, 0, 0, 0, 0, 0x12]) ∧
    memRead 0x11 (at_ 0x10 [0x45, 0x02] #v[0, 0, 0x77, 0, 0, 0, 0, 0x12]) = .ok 2 ∧
    pushAddress (at_ 0x10 [0x45, 0x02] #v[0, 0, 0x77, 0, 0, 0, 0, 0x12]) = 0x11 ∧
    (at_ 0x10 [0x45, 0x02] #v[0, 0, 0x77, 0, 0, 0, 0, 0x12]).mem.wf = true := ⟨⟨rfl, rfl⟩, rfl, rfl, rfl⟩

/-- NextFetchSeesStore: the push writes the next opcode (SP = 3), its first operand (SP = 4), its second (SP = 5). -/
theorem witness_next_fetch (sp : Byte) (h : sp = 3 ∨ sp = 4 ∨ sp = 5) :
    Fetches machineConfig.opPush (at_ 0 [0x45, 0] #v[0x77, 0, 0, 0, 0, 0, 0, sp]) ∧
    (operandA machineConfig (at_ 0 [0x45, 0] #v[0x77, 0, 0, 0, 0, 0, 0, sp])).toNat < 8 ∧
    ∃ t w, step (at_ 0 [0x45, 0] #v[0x77, 0, 0, 0, 0, 0, 0, sp]) = .next t ∧ latch machineConfig t = .ok w ∧
      (sp = 3 → pushAddress (at_ 0 [0x45, 0] #v[0x77, 0, 0, 0, 0, 0, 0, sp]) = t.pc ∧ w.ir = 0x77) ∧
      (sp = 4 → pushAddress (at_ 0 [0x45, 0] #v[0x77, 0, 0, 0, 0, 0, 0, sp]) = t.pc + 1 ∧ w.a = 0x77) ∧
      (sp = 5 → pushAddress (at_ 0 [0x45, 0] #v[0x77, 0, 0, 0, 0, 0, 0, sp]) = t.pc + 2 ∧ w.b = 0x77) := by
  rcases h with rfl | rfl | rfl
  · exact ⟨⟨rfl, rfl⟩, by decide, _, _, rfl, rfl, by decide, by decide, by decide⟩
  · exact ⟨⟨rfl, rfl⟩, by decide, _, _, rfl, rfl, by decide, by decide, by decide⟩
  · exact ⟨⟨rfl, rfl⟩, by decide, _, _, rfl, rfl, by decide, by decide, by decide⟩

end Sys2Proof.Machine
end

section
/-! PROOFS of the scope family (00_scope.md): what a fetched PUSH leaves, and what the next fetch sees of it. -/

namespace Sys2Proof.Machine

variable {c : Config} {s t : State} {op a : Byte} {i : Instr}

/-! ### A step that fetches a known opcode -/

/-- The opcode fetch of `Fetches` is in range, and its byte is the one the step latches (R69). -/
theorem Fetches.fetchedBytes_ir (hf : Fetches op s) : s.pc < memSize ∧ (fetchedBytes c s).ir = op :=
  memRead_eq_ok.mp hf.2

/-- Where the latched bytes decode to an instruction, the step is that instruction (R74). -/
theorem Fetches.stepWith_eq_exec (hf : Fetches op s) (hi : decodeWith c (fetchedBytes c s) = .ok i) :
    stepWith c s = exec i s :=
  have hpc : s.pc < memSize := (hf.fetchedBytes_ir (c := c)).1
  stepWith_exec hf.1 (latch_of_lt hpc) hi

/-- A fetched `OP_PUSH` runs PUSH of the operand byte latched with it (R71, R72). -/
theorem stepWith_push (hc : c.wf = true) (hf : Fetches c.opPush s) :
    stepWith c s = exec (.push (operandA c s)) s :=
  hf.stepWith_eq_exec (decodeWith_push hc hf.fetchedBytes_ir.2)

/-! ### What a PUSH of a valid register leaves -/

/-- PUSH completes with PC past it and SP lowered, and the cell it stored to holds the pushed register as it is after
that (R89, R93). -/
theorem exec_push_stores (hm : s.mem.wf = true) (ha : a.toNat < numRegs) :
    ∃ t, exec (.push a) s = .next t ∧ t.pc = s.pc + 2 ∧ t.sp = s.sp - 1 ∧
      t.mem.readByte (pushAddress s) = t.reg ⟨a.toNat, ha⟩ := by
  refine ⟨_, execPush_valid s ha, rfl, State.sp_decSp s, ?_⟩
  rw [State.advancePc_mem, State.reg_advancePc, State.reg_setByte, State.readByte_setByte (s := s.decSp) hm, if_pos rfl]

/-- The address of a push is in memory, so an operand pre-fetch from it reads the cell (R41, R43). -/
theorem operandFetch_pushAddress (c : Config) (s t : State) :
    operandFetch c (pushAddress s) t = t.mem.readByte (pushAddress s) :=
  operandFetch_of_lt (pushAddress_lt s)

/-! ### The obligations -/

/-- Settles O49: the latch reads each of its three bytes from the memory the PUSH left. -/
theorem nextFetchSeesStore : Obligations.NextFetchSeesStore := by
  intro c s t w ha hc hm hf hstep hlatch
  obtain ⟨u, hu, -, -, hstored⟩ := exec_push_stores hm ha
  obtain rfl : t = u := by
    rw [stepWith_push hc hf, hu] at hstep
    exact (Host.Outcome.next.inj hstep).symm
  obtain ⟨-, rfl⟩ := latch_eq_ok hlatch
  refine ⟨fun h => ?_, fun h => ?_, fun h => ?_⟩
  · rw [fetchedBytes, ← h, hstored]
  · rw [fetchedBytes, ← h, operandFetch_pushAddress, hstored]
  · rw [fetchedBytes, ← h, operandFetch_pushAddress, hstored]

/-- Settles O46: PUSH lowers SP before it reads the register, POP raises SP after it has written the register, and with
R7 as operand the register is SP. -/
theorem stackPointerAsOperand : Obligations.StackPointerAsOperand := by
  refine ⟨fun s hm => ?_, fun s => ?_⟩
  · obtain ⟨t, ht, -, hsp, hstored⟩ := exec_push_stores (a := 7) hm (by decide)
    have hread : t.mem.readByte (s.sp - 1).toNat = s.sp - 1 := by
      rw [← pushAddress_eq, hstored]
      exact hsp
    exact ⟨t, ht, hsp, memRead_eq_ok.mpr ⟨(s.sp - 1).isLt, hread⟩⟩
  · have hsp : ((s.setReg spIndex (s.mem.readByte (popAddress s))).incSp.advancePc 2).sp =
        s.mem.readByte (popAddress s) + 1 := by
      rw [State.sp, State.reg_advancePc, ← State.sp, State.sp_incSp, State.sp, State.reg_setReg_self]
    exact ⟨_, _, execPop_valid s (by decide), memRead_of_lt (popAddress_lt s), hsp⟩

/-- Settles O48: the operand byte is latched before the store, so it is the old one that names the register. -/
theorem pushOverItsOwnOperand : Obligations.PushOverItsOwnOperand := by
  intro c s a ha hc hm hf hoperand haddr
  obtain ⟨hlt, hread⟩ := memRead_eq_ok.mp hoperand
  have hlatched : operandA c s = a := by
    rw [operandA, operandFetch_of_lt hlt, hread]
  obtain ⟨t, ht, hpc, -, hstored⟩ := exec_push_stores hm ha
  refine ⟨t, ?_, memRead_eq_ok.mpr ⟨hlt, ?_⟩, hpc⟩
  · rw [stepWith_push hc hf, hlatched, ht]
  · rw [← haddr, hstored]

end Sys2Proof.Machine
end

section
/-! PROOFS of the memory family (20_memory.md): the memory write contract, the reset state, and the state after load. -/

namespace Sys2Proof.Machine

variable {s t : State} {addr : Nat} {image : List Nat}

/-! ### A write to one cell -/

/-- A byte keeps a value modulo 256, whether or not the value was reduced before (10_state.md R19). -/
theorem wrap8_eq_ofNat_mod (n : Nat) : wrap8 n = BitVec.ofNat 8 (n % 256) :=
  BitVec.eq_of_toNat_eq (by rw [wrap8_toNat, BitVec.toNat_ofNat, Nat.mod_mod])

/-- The written cell reads as the written byte (R38, R39). -/
theorem memRead_setByte_self (hm : s.mem.wf = true) (ha : addr < memSize) (v : Byte) :
    memRead addr (s.setByte addr v) = .ok v :=
  memRead_eq_ok.mpr ⟨ha, by rw [State.readByte_setByte hm, if_pos rfl]⟩

/-- A write changes no other cell (R39); an address with no cell fails before and after it alike. -/
theorem memoryKeptBut_setByte (hm : s.mem.wf = true) (addr : Nat) (v : Byte) :
    MemoryKeptBut addr s (s.setByte addr v) := by
  intro x hx
  rw [memRead, memRead, State.readByte_setByte hm, if_neg hx]

/-! ### The reset state (10_state.md Table V) -/

theorem memRead_reset (ha : addr < memSize) : memRead addr State.reset = .ok unwrittenByte :=
  memRead_of_lt ha

/-- Every register but SP is 0 at reset (R34). -/
theorem State.reg_reset_of_ne_sp : ∀ r : Fin numRegs, r ≠ spIndex → State.reset.reg r = 0 := by
  decide

/-! ### The state after load (70_reset_and_hazards.md R115) -/

/-- An image that fits in memory loads. -/
theorem boot_fits (h : image.length ≤ memSize) :
    ∃ t, boot image = .ok t ∧ Loaded loadBase image State.reset t :=
  loadFrom_fits image loadBase State.reset Memory.wf_reset (by rwa [Nat.zero_add])

/-- After a load from `LOAD_BASE` on the reset state a cell holds its value of the image, and 0 beyond the image. -/
theorem Loaded.readByte_of_reset (hl : Loaded loadBase image State.reset t) (addr : Nat) :
    t.mem.readByte addr = BitVec.ofNat 8 (image.getD addr 0) := by
  simp only [hl.cells, loadBase, Nat.zero_le, true_and, Nat.zero_add, Nat.sub_zero]
  rcases Nat.lt_or_ge addr image.length with hin | hbeyond
  · rw [if_pos hin]
  · rw [if_neg hbeyond.not_gt, List.getD_eq_default _ _ hbeyond]
    rfl

/-- A load leaves every register alone. -/
theorem Loaded.registersKept (hl : Loaded addr image s t) : RegistersKept [] s t :=
  fun r _ => by rw [State.reg, State.reg, hl.regs]

/-! ### The obligations -/

/-- Settles O3: inside the address space the write is `setByte` of the value modulo 256, outside it is refused. -/
theorem memoryWriteContract : Obligations.MemoryWriteContract := by
  intro s addr v hm
  refine ⟨fun ha => ⟨_, memWrite_of_lt ha v, ?stored, memoryKeptBut_setByte hm addr _, Memory.wf_writeByte hm ha _,
    fun r _ => State.reg_setByte s addr _ r, rfl, rfl, rfl, rfl⟩, fun ha => memWrite_of_ge ha v⟩
  case stored => rw [memRead_setByte_self hm ha, wrap8_eq_ofNat_mod]

/-- Settles O1: the reset state is read off Table V; the loaded state is what `Loaded` says over it. -/
theorem resetAndLoadedState : Obligations.ResetAndLoadedState := by
  refine ⟨⟨fun _ => memRead_reset, State.reg_reset_of_ne_sp, rfl, rfl, rfl, rfl, rfl, rfl⟩, fun image hfits => ?_⟩
  obtain ⟨t, hboot, hl⟩ := boot_fits hfits
  exact ⟨t, hboot, fun addr ha => memRead_eq_ok.mpr ⟨ha, hl.readByte_of_reset addr⟩, hl.registersKept,
    hl.pc, hl.status, hl.out, hl.diag⟩

end Sys2Proof.Machine
end

section
/-! PROOFS of the encoding family (30_encoding.md): what a decoding says of the opcode byte. -/

namespace Sys2Proof.Machine

variable {c : Config} {w : InstrBytes} {i : Instr}

/-- An instruction is given only for its own opcode byte, which is in the table (R60). -/
theorem opcode_of_decodeWith_eq_ok (hi : decodeWith c w = .ok i) : i.opcode c = w.ir ∧ w.ir ∈ c.opcodes := by
  rcases decodeWith_cases c w with ⟨j, hj, hop, hmem, -⟩ | ⟨herr, -⟩
  · obtain rfl : j = i := Except.ok.inj (hj.symm.trans hi)
    exact ⟨hop, hmem⟩
  · exact nomatch herr.symm.trans hi

/-- Every byte of the table selects an instruction (R60). -/
theorem exists_decodeWith_eq_ok (h : w.ir ∈ c.opcodes) : ∃ i, decodeWith c w = .ok i := by
  rcases decodeWith_cases c w with ⟨i, hi, -⟩ | ⟨-, hunknown⟩
  · exact ⟨i, hi⟩
  · exact absurd h hunknown

/-! ### The obligations -/

/-- Settles O16: a decoding is a success on a byte of the table or the rejection of a byte outside it. -/
theorem decodingIsExactMatch : Obligations.DecodingIsExactMatch := by
  intro c w _
  exact ⟨⟨fun ⟨_, hi⟩ => (opcode_of_decodeWith_eq_ok hi).2, exists_decodeWith_eq_ok⟩,
    fun _ hi => (opcode_of_decodeWith_eq_ok hi).1, decodeWith_unknown⟩

end Sys2Proof.Machine
end

section
/-! PROOFS of the cycle family (40_cycle.md): when a step is enabled. -/

namespace Sys2Proof.Machine

/-- Settles O26: the inversion of a step gives the status, and a RUNNING machine has one of the four steps of `Stepped`. -/
theorem stepEnabledIffRunning : Obligations.StepEnabledIffRunning := by
  intro c s
  constructor
  case mp =>
    rintro ⟨t, hstep⟩
    exact (stepWith_next hstep).1
  case mpr =>
    intro hrunning
    obtain ⟨t, hstep, -⟩ := stepWith_running c hrunning
    exact ⟨t, hstep⟩

end Sys2Proof.Machine
end

section
/-! PROOFS of the system family (42_system.md): HLT and NOP. -/

namespace Sys2Proof.Machine

/-- HALTED is terminal: no step leads out of it (R80, corner case 1). -/
theorem stepWith_ne_next_of_halted {s : State} (h : s.status = .halted) (c : Config) (t : State) :
    stepWith c s ≠ .next t := by
  rw [stepWith_halted h]
  exact nofun

/-! ### The obligations -/

/-- Settles O8: HLT is the one update `halt`, which writes the status alone. -/
theorem hltHalts : Obligations.HltHalts := by
  constructor
  case left =>
    intro s
    exact ⟨s.halt, execHlt_eq s, State.halt_status s, State.halt_pc s, fun r _ => State.reg_halt s r,
      memRead_congr (State.halt_mem s), State.halt_out s, State.halt_diag s,
      stepWith_ne_next_of_halted (State.halt_status s)⟩
  case right =>
    intro c s _ hf
    exact hf.stepWith_eq_exec (decodeWith_hlt hf.fetchedBytes_ir.2)

/-- Settles O9: NOP is the one update `advancePc`, which writes PC alone. -/
theorem nopOnlyAdvancesPc : Obligations.NopOnlyAdvancesPc := by
  constructor
  case left =>
    intro s
    exact ⟨s.advancePc 1, execNop_eq s, State.advancePc_pc s 1, fun r _ => State.reg_advancePc s 1 r,
      memRead_congr (State.advancePc_mem s 1), State.advancePc_status s 1, State.advancePc_out s 1,
      State.advancePc_diag s 1⟩
  case right =>
    intro c s hc hf
    exact hf.stepWith_eq_exec (decodeWith_nop hc hf.fetchedBytes_ir.2)

end Sys2Proof.Machine
end

section
/-! PROOFS of the encoding statements (30_encoding.md): an instruction decodes from three bytes exactly where its
encoding begins them, so decoding and encoding undo each other. -/

namespace Sys2Proof.Machine

variable {c : Config} {w x : InstrBytes} {i : Instr} {bs : List Byte}

/-! ### Decoding is beginning with the encoding -/

theorem length_encodeWith (c : Config) (i : Instr) : (encodeWith c i).length = i.length := by
  rw [encodeWith, List.length_cons, Instr.length, Nat.add_comm]

/-- No instruction has more bytes than a step latches (Table F). -/
theorem length_le_three (i : Instr) : i.length ≤ 3 := by
  cases i <;> simp [Instr.length, Instr.operands]

theorem singleton_prefix_pair {a x y : Byte} : [a] <+: [x, y] ↔ a = x := by
  simp [List.cons_prefix_cons]

theorem pair_prefix_pair {a b x y : Byte} : [a, b] <+: [x, y] ↔ a = x ∧ b = y := by
  simp [List.cons_prefix_cons]

/-- What decodes has its encoding at the beginning of the bytes (R60, R62). -/
theorem encodeWith_prefix_of_decodeWith (hi : decodeWith c w = .ok i) : encodeWith c i <+: [w.ir, w.a, w.b] := by
  rcases decodeWith_cases c w with ⟨j, hj, hop, -, hargs⟩ | ⟨herr, -⟩
  · obtain rfl : j = i := Except.ok.inj (hj.symm.trans hi)
    rw [encodeWith, hop, List.cons_prefix_cons]
    refine ⟨rfl, ?_⟩
    rcases hargs with h | h | h <;> simp [h]
  · exact nomatch herr.symm.trans hi

/-- Bytes that begin with the encoding of an instruction decode to it (R60, R62). -/
theorem decodeWith_of_encodeWith_prefix (hc : c.wf = true) (h : encodeWith c i <+: [w.ir, w.a, w.b]) :
    decodeWith c w = .ok i := by
  obtain ⟨hop, hargs⟩ := List.cons_prefix_cons.mp h
  cases i with
  | nop => exact decodeWith_nop hc hop.symm
  | hlt => exact decodeWith_hlt hop.symm
  | prn a =>
    obtain rfl := singleton_prefix_pair.mp hargs
    exact decodeWith_prn hop.symm
  | ldi a imm =>
    obtain ⟨rfl, rfl⟩ := pair_prefix_pair.mp hargs
    exact decodeWith_ldi hop.symm
  | mul a b =>
    obtain ⟨rfl, rfl⟩ := pair_prefix_pair.mp hargs
    exact decodeWith_mul hop.symm
  | add a b =>
    obtain ⟨rfl, rfl⟩ := pair_prefix_pair.mp hargs
    exact decodeWith_add hc hop.symm
  | push a =>
    obtain rfl := singleton_prefix_pair.mp hargs
    exact decodeWith_push hc hop.symm
  | pop a =>
    obtain rfl := singleton_prefix_pair.mp hargs
    exact decodeWith_pop hc hop.symm

/-- The three latched bytes begin with a list of at most three bytes, whatever follows it. -/
theorem prefix_latchList (h : bs.length ≤ 3) (following : List Byte) :
    bs <+: [(latchList (bs ++ following)).ir, (latchList (bs ++ following)).a, (latchList (bs ++ following)).b] := by
  match bs, h with
  | [], _ => exact List.nil_prefix
  | [a], _ => exact List.prefix_append [a] _
  | [a, b], _ => exact List.prefix_append [a, b] _
  | [a, b, d], _ => exact List.prefix_rfl

/-! ### The choice of the open opcode bytes -/

/-- The table is the five given opcodes and one open opcode after the other, so that no two rows are equal says of each
open one that it is new. -/
theorem Config.opcodes_nodup_iff (c : Config) : c.opcodes.Nodup ↔
    c.opPop ∉ [opNop, opHlt, opPrn, opLdi, opMul, c.opAdd, c.opPush] ∧
    c.opPush ∉ [opNop, opHlt, opPrn, opLdi, opMul, c.opAdd] ∧
    c.opAdd ∉ [opNop, opHlt, opPrn, opLdi, opMul] ∧ [opNop, opHlt, opPrn, opLdi, opMul].Nodup := by
  change ((([opNop, opHlt, opPrn, opLdi, opMul].concat c.opAdd).concat c.opPush).concat c.opPop).Nodup ↔ _
  rw [List.nodup_concat, List.nodup_concat, List.nodup_concat]
  exact Iff.rfl

/-! ### The obligations -/

/-- Settles O20: the latched bytes begin with the encoding. -/
theorem decodeOfEncode : Obligations.DecodeOfEncode := by
  intro c i following hc
  have hlen : (encodeWith c i).length ≤ 3 := length_encodeWith c i ▸ length_le_three i
  exact decodeWith_of_encodeWith_prefix hc (prefix_latchList hlen following)

/-- Settles O21: the encoding begins the bytes, so it is as many of them as it is long. -/
theorem encodeOfDecode : Obligations.EncodeOfDecode := by
  intro c w i hi
  rw [← length_encodeWith c i]
  exact List.prefix_iff_eq_take.mp (encodeWith_prefix_of_decodeWith hi)

/-- Settles O22: the opcode bytes are the same, so the same arm decodes, and it reads only the operand bytes its format
uses. -/
theorem unusedOperandBytesIgnored : Obligations.UnusedOperandBytesIgnored := by
  intro c w x i hi hagree
  rw [Instr.length, Nat.add_comm] at hagree
  obtain ⟨hir, hargs⟩ := List.cons.inj hagree
  unfold decodeWith at hi ⊢
  rw [hir]
  split_ifs at hi ⊢ with hldi hprn hhlt hmul hadd hpush hpop hnop
  · cases hi; simpa [Instr.operands] using hargs
  · cases hi; simpa [Instr.operands] using hargs
  · exact hi
  · cases hi; simpa [Instr.operands] using hargs
  · cases hi; simpa [Instr.operands] using hargs
  · cases hi; simpa [Instr.operands] using hargs
  · cases hi; simpa [Instr.operands] using hargs
  · exact hi

/-- Settles O18: both say of each open opcode byte that it is none of those before it. -/
theorem admissibleOpcodesDiffer : Obligations.AdmissibleOpcodesDiffer := by
  intro c
  have hgiven : [opNop, opHlt, opPrn, opLdi, opMul].Nodup := by decide
  rw [Config.opcodes_nodup_iff, Config.wf, decide_eq_true_iff]
  constructor
  · exact fun ⟨hadd, hpush, hpop⟩ => ⟨hpop, hpush, hadd, hgiven⟩
  · exact fun ⟨hpop, hpush, hadd, _⟩ => ⟨hadd, hpush, hpop⟩

/-- Settles O17: a finite check of the table. -/
theorem opcodeTableOfTheMachine : Obligations.OpcodeTableOfTheMachine :=
  ⟨machineConfig_wf, rfl, by decide +kernel⟩

/-- Settles O19: each word begins with the opcode byte of its row, and 0xFF is in no row. -/
theorem writtenWordsDecode : Obligations.WrittenWordsDecode :=
  ⟨decodeWith_ldi rfl, decodeWith_prn rfl, decodeWith_hlt rfl, decodeWith_mul rfl,
    decodeWith_nop machineConfig_wf rfl, decodeWith_add machineConfig_wf rfl, decodeWith_push machineConfig_wf rfl,
    decodeWith_pop machineConfig_wf rfl, decodeWith_unknown (by decide)⟩

end Sys2Proof.Machine
end

section
/-! PROOFS about the blocks alone: canonical memories, the loader on an image that is too long, the register file and
the ALU (20_memory.md, 70_reset_and_hazards.md, 10_state.md, 43_alu.md). -/

namespace Sys2Proof.Machine

variable {s : State} {m n : Memory}

/-! ### Canonical memories -/

/-- By induction on the list: memories that read alike begin with the same cell, since below its first cell a canonical
memory reads as reset left it, and then their rests read alike. -/
theorem Memory.eq_of_readByte_eq {lo : Nat} (hm : Memory.wfFrom lo m = true) (hn : Memory.wfFrom lo n = true)
    (h : ∀ x, m.readByte x = n.readByte x) : m = n := by
  induction m generalizing lo n with
  | nil =>
    match n, hn with
    | [], _ => rfl
    | (b, w) :: n, hn =>
      obtain ⟨-, -, hw, -⟩ := Memory.wfFrom_cons.mp hn
      exact absurd (by simpa [Memory.readByte] using (h b).symm) hw
  | cons cell m ih =>
    obtain ⟨a, v⟩ := cell
    obtain ⟨hla, -, hv, hm⟩ := Memory.wfFrom_cons.mp hm
    match n, hn with
    | [], _ => exact absurd (by simpa [Memory.readByte] using h a) hv
    | (b, w) :: n, hn =>
      obtain ⟨hlb, -, hw, hn⟩ := Memory.wfFrom_cons.mp hn
      have below {y : Nat} {k : Memory} (hk : Memory.wfFrom (y + 1) k = true) {x : Nat} (hx : x ≤ y) :
          k.readByte x = unwrittenByte := Memory.readByte_below hk (Nat.lt_succ_of_le hx)
      rcases Nat.lt_trichotomy a b with hlt | rfl | hgt
      · exact absurd (by simpa [Memory.readByte, hlt.ne, below hn hlt.le] using h a) hv
      · have hvw : v = w := by simpa [Memory.readByte] using h a
        have hrest : ∀ x, Memory.readByte m x = Memory.readByte n x := by
          intro x
          by_cases hx : x = a
          · rw [below hm hx.le, below hn hx.le]
          · simpa [Memory.readByte, hx] using h x
        rw [hvw, ih hm hn hrest]
      · exact absurd (by simpa [Memory.readByte, hgt.ne, below hm hgt.le] using (h b).symm) hw

/-! ### What a register write keeps -/

/-- The integer a register write keeps, modulo 256 (10_state.md R19). -/
theorem wrap8_toNat_intCast (v : Int) : ((wrap8 v).toNat : Int) = v % 256 := by
  rw [wrap8, BitVec.toNat_ofInt, Int.toNat_of_nonneg (Int.emod_nonneg v (by decide))]
  rfl

theorem registersKept_setReg (s : State) (r : Fin numRegs) (v : Byte) : RegistersKept [r] s (s.setReg r v) :=
  fun _ hq => State.reg_setReg_ne s (List.ne_of_not_mem_cons hq) v

/-- A read by operand byte sees a register write only where the byte is the written one's (R18). -/
theorem regRead_setReg_of_ne {i j : Byte} (hi : i.toNat < numRegs) (hj : j ≠ i) (v : Byte) :
    regRead j (s.setReg ⟨i.toNat, hi⟩ v) = regRead j s := by
  rcases Nat.lt_or_ge j.toNat numRegs with h | h
  · have hne : (⟨j.toNat, h⟩ : Fin numRegs) ≠ ⟨i.toNat, hi⟩ :=
      fun heq => hj (BitVec.eq_of_toNat_eq (Fin.mk.inj heq))
    rw [regRead_valid h, regRead_valid h, State.reg_setReg_ne s hne]
  · rw [regRead_invalid h, regRead_invalid h]

/-! ### The obligations -/

/-- Settles O4: above 255 both read as reset left it, so the memories read alike everywhere. -/
theorem canonicalMemoriesAreEqual : Obligations.CanonicalMemoriesAreEqual := by
  intro m n hm hn h
  refine Memory.eq_of_readByte_eq hm hn fun x => ?_
  rcases Nat.lt_or_ge x memSize with hx | hx
  · exact h x hx
  · rw [Memory.readByte_outside hm hx, Memory.readByte_outside hn hx]

/-- Settles O2: the load fails where the image runs out of cells. -/
theorem longImageRefused : Obligations.LongImageRefused :=
  fun image h => loadFrom_overflows image loadBase State.reset (Nat.zero_le _) (by rwa [Nat.zero_add])

/-- Settles O5: a write to a register that exists is `setReg` of the value modulo 256; the index check refuses the
rest. -/
theorem registerFileContract : Obligations.RegisterFileContract := by
  intro s i v
  refine ⟨fun hi => ?valid, fun hi => ⟨regRead_invalid hi s, regWrite_invalid hi v s⟩⟩
  case valid =>
    have hi : i.toNat < numRegs := Nat.lt_succ_of_le hi
    exact ⟨_, wrap8 v, regWrite_valid hi v s, by rw [regRead_valid hi, State.reg_setReg_self], wrap8_toNat_intCast v,
      fun j hj => regRead_setReg_of_ne hi hj _, memRead_congr rfl, rfl, rfl, rfl, rfl⟩

/-- Settles O35: an identifier selects addition, multiplication or nothing, and then the indices are checked. -/
theorem aluBlockContract : Obligations.AluBlockContract := by
  intro c op a b s hc
  refine ⟨fun hadd hmul => aluApply_unsupported s (aluOperation_none hadd hmul) a b, ?_⟩
  have hdiff : c.opAdd ≠ opMul := (Config.wf_iff.mp hc).1.2.2.2.2
  rintro (rfl | rfl)
  · have hop := aluOperation_add c
    refine ⟨fun ha => aluApply_invalid_a s hop ha b, fun ha hb => aluApply_invalid_b s hop ha hb, fun ha hb =>
      ⟨_, aluApply_valid s hop ha hb, fun _ => ?_, fun hmul => absurd hmul hdiff, registersKept_setReg s _ _,
        rfl, rfl, rfl, rfl, rfl⟩⟩
    rw [State.reg_setReg_self, aluResult, BitVec.toNat_ofNat]
  · have hop := aluOperation_mul hc
    refine ⟨fun ha => aluApply_invalid_a s hop ha b, fun ha hb => aluApply_invalid_b s hop ha hb, fun ha hb =>
      ⟨_, aluApply_valid s hop ha hb, fun hadd => absurd hadd.symm hdiff, fun _ => ?_, registersKept_setReg s _ _,
        rfl, rfl, rfl, rfl, rfl⟩⟩
    rw [State.reg_setReg_self, aluResult, BitVec.toNat_ofNat]

end Sys2Proof.Machine
end

section
/-! PROOFS of the invariant and of what bounds a run: PC, the channels, termination (10_state.md, 40_cycle.md R77). -/

namespace Sys2Proof.Machine

variable {c : Config} {s t : State} {i : Instr} {k : FaultKind} {b : Byte}

/-! ### How far a step can go -/

theorem pcAdvance_le_three (i : Instr) : i.pcAdvance ≤ 3 := by
  cases i <;> simp [Instr.pcAdvance]

/-- A step moves PC by at most 3, and at 256 or more not at all. -/
theorem Stepped.pc_bounded (h : Stepped c s t) : t.pc ≤ s.pc + 3 ∧ (s.pc < memSize ∨ t.pc = s.pc) := by
  cases h with
  | fetchFault => exact ⟨Nat.le_add_right _ _, .inr rfl⟩
  | regFault hpc => exact ⟨Nat.le_add_right _ _, .inl hpc⟩
  | unknown hpc => exact ⟨Nat.add_le_add_left (by decide) _, .inl hpc⟩
  | complete hpc _ _ _ hc => exact ⟨hc.pc_eq ▸ Nat.add_le_add_left (pcAdvance_le_three _) _, .inl hpc⟩

/-- An output value costs two bytes of program (R25, R79). -/
theorem Completes.out_bounded (h : Completes s i t) : 2 * t.out.length ≤ 2 * s.out.length + i.pcAdvance := by
  cases h with
  | prn _ => simp [Instr.pcAdvance]; omega
  | _ => exact Nat.le_add_right _ _

/-! ### The invariant at each kind of step -/

theorem statusConsistent_of_running (h : s.status = .running) : StatusConsistent s := by
  simp only [StatusConsistent, h]

/-- The invariant of a state that runs and has sent nothing. -/
theorem inv_of_silent (hm : s.mem.wf = true) (hpc : s.pc ≤ 258) (hr : s.status = .running) (hout : s.out = [])
    (hdiag : s.diag = []) : Inv s where
  memory_canonical := hm
  pc_bound := hpc
  status_consistent := statusConsistent_of_running hr
  reports_rising := hdiag ▸ .nil
  reports_past := hdiag ▸ nofun
  channels_bounded := by simp [hout, hdiag]

/-- A fault changes the status alone, so it is the status alone that has to fit. -/
theorem Inv.takeFault (h : Inv s) (hk : StatusConsistent (s.takeFault k)) : Inv (s.takeFault k) :=
  ⟨h.memory_canonical, h.pc_bound, hk, h.reports_rising, h.reports_past, h.channels_bounded⟩

theorem Inv.completes (h : Inv s) (hr : s.status = .running) (hpc : s.pc < memSize)
    (hhlt : i = .hlt → s.mem.readByte s.pc = opHlt) (hc : Completes s i t) : Inv t where
  memory_canonical := hc.mem_wf s h.memory_canonical
  pc_bound := by
    calc t.pc = s.pc + i.pcAdvance := hc.pc_eq s
      _ ≤ 255 + 3 := Nat.add_le_add (Nat.le_of_lt_succ hpc) (pcAdvance_le_three i)
  status_consistent := by
    by_cases hi : i = .hlt
    · subst hi
      cases hc
      exact memRead_eq_ok.mpr ⟨hpc, hhlt rfl⟩
    · exact statusConsistent_of_running (by rw [hc.status_eq, if_neg hi, hr])
  reports_rising := hc.diag_eq ▸ h.reports_rising
  reports_past e he := by
    obtain ⟨hlt, hin, hop⟩ := h.reports_past e (hc.diag_eq s ▸ he)
    exact ⟨by rw [hc.pc_eq]; omega, hin, hop⟩
  channels_bounded := by
    have hout := hc.out_bounded
    have hold := h.channels_bounded
    rw [hc.pc_eq, hc.diag_eq]
    omega

/-- A report names PC, which all earlier reports are below, and PC moves past it. -/
theorem Inv.reportUnknown (h : Inv s) (hr : s.status = .running) (hpc : s.pc < memSize)
    (hb : b ∉ machineConfig.opcodes) : Inv ((s.reportUnknown s.pc b).advancePc 1) where
  memory_canonical := h.memory_canonical
  pc_bound := by
    exact Nat.le_trans hpc (by decide)
  status_consistent := statusConsistent_of_running hr
  reports_rising := by
    refine List.pairwise_append.mpr ⟨h.reports_rising, List.pairwise_singleton _ _, fun e he f hf => ?_⟩
    rw [List.mem_singleton.mp hf]
    exact (h.reports_past e he).1
  reports_past e he := by
    rcases List.mem_append.mp he with he | he
    · obtain ⟨hlt, hin, hop⟩ := h.reports_past e he
      exact ⟨Nat.lt_succ_of_lt hlt, hin, hop⟩
    · rw [List.mem_singleton.mp he]
      exact ⟨Nat.lt_succ_self _, hpc, hb⟩
  channels_bounded := by
    have hold := h.channels_bounded
    simp only [State.advancePc_out, State.advancePc_diag, State.advancePc_pc, State.reportUnknown_out,
      State.reportUnknown_diag, State.reportUnknown_pc, List.length_append, List.length_singleton]
    omega

/-! ### Termination -/

/-- A step ends the run or raises PC, and from 256 on it ends the run (R77). -/
theorem run_ends (n : Nat) (s : State) (hr : s.status = .running) (hn : 256 - s.pc ≤ n) :
    ∃ k t, k ≤ n + 1 ∧ RunsTo k s t ∧ t.status ≠ .running := by
  induction n generalizing s with
  | zero =>
    obtain ⟨t, hstep, hs⟩ := stepWith_running machineConfig hr
    refine ⟨1, t, Nat.le_refl _, runsTo_succ hstep (runsTo_zero t), fun ht => ?_⟩
    obtain ⟨hlt, -, -⟩ := hs.pc_rises ht
    exact absurd hlt (Nat.not_lt.mpr (Nat.le_of_sub_eq_zero (Nat.le_zero.mp hn)))
  | succ n ih =>
    obtain ⟨t, hstep, hs⟩ := stepWith_running machineConfig hr
    by_cases ht : t.status = .running
    · obtain ⟨-, hrise, -⟩ := hs.pc_rises ht
      obtain ⟨k, u, hk, hrun, hu⟩ := ih t ht (by omega)
      exact ⟨k + 1, u, Nat.succ_le_succ hk, runsTo_succ hstep hrun, hu⟩
    · exact ⟨1, t, Nat.le_add_left _ _, runsTo_succ hstep (runsTo_zero t), ht⟩

/-! ### The obligations -/

/-- Settles O42: each of the four kinds of step keeps the invariant. -/
theorem stepKeepsInv : Obligations.StepKeepsInv := by
  intro s t h hstep
  obtain ⟨hr, hs⟩ := stepWith_next hstep
  cases hs with
  | fetchFault hpc => exact h.takeFault ⟨rfl, hpc⟩
  | regFault hpc _ _ _ hj => exact h.takeFault ⟨invalid_of_firstInvalid hj, hpc⟩
  | unknown hpc hop => exact h.reportUnknown hr hpc hop
  | complete hpc hop _ _ hc => exact h.completes hr hpc (fun hi => by rw [← hop, hi]; rfl) hc

/-- Settles O43: the reset state runs and has sent nothing. -/
theorem resetMeetsInv : Obligations.ResetMeetsInv :=
  inv_of_silent Memory.wf_reset (Nat.zero_le _) rfl rfl rfl

/-- Settles O44: an image that loads fits, and a load changes the memory of the reset state alone. -/
theorem loadedImageMeetsInv : Obligations.LoadedImageMeetsInv := by
  intro image t hboot
  have hfits : image.length ≤ memSize := by
    refine Nat.le_of_not_lt fun hlong => ?_
    exact nomatch hboot.symm.trans (longImageRefused image hlong)
  obtain ⟨u, hu, hl⟩ := boot_fits hfits
  obtain rfl : u = t := Except.ok.inj (hu.symm.trans hboot)
  exact inv_of_silent hl.wf (hl.pc ▸ Nat.zero_le _) hl.status hl.out hl.diag

/-- Settles O41: the number of addresses from PC on bounds the steps before the last one. -/
theorem everyRunEnds : Obligations.EveryRunEnds := by
  intro s hr
  obtain ⟨k, t, hk, hrun, ht⟩ := run_ends (256 - s.pc) s hr (Nat.le_refl _)
  exact ⟨k, t, by omega, hrun, ht⟩

/-- Settles O50: a step moves PC by at most 3, from below 256; NOP at address 255 takes it to 256. -/
theorem pcFitsItsLeastWidth : Obligations.PcFitsItsLeastWidth := by
  constructor
  case left =>
    intro s t hpc hstep
    obtain ⟨hle, hlt | heq⟩ := (stepWith_next hstep).2.pc_bounded
    · exact Nat.lt_of_le_of_lt hle (Nat.lt_trans (Nat.add_lt_add_right hlt 3) (by decide))
    · exact heq ▸ hpc
  case right =>
    exact ⟨{ State.reset with pc := 255 }, { State.reset with pc := 256 },
      inv_of_silent Memory.wf_reset (by decide) rfl rfl rfl, by decide, rfl, rfl, by decide⟩

end Sys2Proof.Machine
end

section
/-! PROOFS of what each instruction does (41_ldi.md to 44_stack.md): completion, result, frame, fault and fetch. -/

namespace Sys2Proof.Machine

variable {c : Config} {s : State} {a op : Byte}

/-! ### The instruction a fetched opcode runs (40_cycle.md R71) -/

theorem stepWith_ldi (hf : Fetches opLdi s) : stepWith c s = exec (.ldi (operandA c s) (operandB c s)) s :=
  hf.stepWith_eq_exec (decodeWith_ldi hf.fetchedBytes_ir.2)

theorem stepWith_prn (hf : Fetches opPrn s) : stepWith c s = exec (.prn (operandA c s)) s :=
  hf.stepWith_eq_exec (decodeWith_prn hf.fetchedBytes_ir.2)

theorem stepWith_mul (hf : Fetches opMul s) : stepWith c s = exec (.mul (operandA c s) (operandB c s)) s :=
  hf.stepWith_eq_exec (decodeWith_mul hf.fetchedBytes_ir.2)

theorem stepWith_add (hc : c.wf = true) (hf : Fetches c.opAdd s) :
    stepWith c s = exec (.add (operandA c s) (operandB c s)) s :=
  hf.stepWith_eq_exec (decodeWith_add hc hf.fetchedBytes_ir.2)

theorem stepWith_pop (hc : c.wf = true) (hf : Fetches c.opPop s) : stepWith c s = exec (.pop (operandA c s)) s :=
  hf.stepWith_eq_exec (decodeWith_pop hc hf.fetchedBytes_ir.2)

/-- A fetched byte outside the table is reported and skipped (R82). -/
theorem stepWith_report (hf : Fetches op s) (hop : op ∉ c.opcodes) :
    stepWith c s = .next ((s.reportUnknown s.pc op).advancePc 1) := by
  obtain ⟨hpc, hir⟩ := hf.fetchedBytes_ir (c := c)
  rw [stepWith_unknown hf.1 (latch_of_lt hpc) (decodeWith_unknown (hir ▸ hop)), execUnknown_eq, hir]

/-! ### The stack pointer -/

theorem toNat_sub_one (v : Byte) : (v - 1).toNat = (v.toNat + 255) % 256 := by
  bv_omega

theorem toNat_add_one (v : Byte) : (v + 1).toNat = (v.toNat + 1) % 256 :=
  BitVec.toNat_add v 1

/-- An operand byte other than 7 names a register other than SP. -/
theorem index_ne_spIndex (ha : a.toNat < numRegs) (hne : a.toNat ≠ 7) : (⟨a.toNat, ha⟩ : Fin numRegs) ≠ spIndex :=
  fun h => hne (Fin.val_eq_of_eq h)

theorem registersKept_decSp (s : State) : RegistersKept [spIndex] s s.decSp :=
  State.decSp_eq s ▸ registersKept_setReg s spIndex _

/-- A register write followed by the increment of SP changes that register and SP at most. -/
theorem registersKept_setReg_incSp (s : State) (r : Fin numRegs) (v : Byte) :
    RegistersKept [r, spIndex] s (s.setReg r v).incSp := by
  intro q hq
  obtain ⟨hqr, hqsp⟩ := not_or.mp (List.mem_pair.not.mp hq)
  rw [State.reg_incSp, if_neg hqsp, State.reg_setReg_ne s hqr]

/-! ### The obligations -/

/-- Settles O6: LDI is one `setReg`. -/
theorem ldiLoadsImmediate : Obligations.LdiLoadsImmediate :=
  ⟨fun s _ imm ha => ⟨_, execLdi_valid s imm ha, State.reg_setReg_self s _ _, rfl, registersKept_setReg s _ _,
      memRead_congr rfl, rfl, rfl, rfl⟩,
    fun s _ imm ha => execLdi_invalid s imm ha, fun _ _ _ hf => stepWith_ldi hf⟩

/-- Settles O7: PRN is one `emitOut`. -/
theorem prnEmitsRegister : Obligations.PrnEmitsRegister :=
  ⟨fun s _ ha => ⟨_, execPrn_valid s ha, rfl, rfl, fun _ _ => rfl, memRead_congr rfl, rfl, rfl⟩,
    fun s _ ha => execPrn_invalid s ha, fun _ _ _ hf => stepWith_prn hf⟩

/-- Settles O10: MUL is one `setReg` of the product, which the register keeps modulo 256. -/
theorem mulMultiplies : Obligations.MulMultiplies := by
  refine ⟨fun s a b ha hb => ⟨_, execMul_valid s ha hb, ?result, rfl, registersKept_setReg s _ _, memRead_congr rfl,
    rfl, rfl, rfl⟩, fun s _ b ha => execMul_invalid_a s b ha, fun s _ _ ha hb => execMul_invalid_b s ha hb,
    fun _ _ _ hf => stepWith_mul hf⟩
  case result => rw [State.reg_advancePc, State.reg_setReg_self, BitVec.toNat_ofNat, aluResult]

/-- Settles O11: ADD is one `setReg` of the sum, which the register keeps modulo 256. -/
theorem addAdds : Obligations.AddAdds := by
  refine ⟨fun s a b ha hb => ⟨_, execAdd_valid s ha hb, ?result, rfl, registersKept_setReg s _ _, memRead_congr rfl,
    rfl, rfl, rfl⟩, fun s _ b ha => execAdd_invalid_a s b ha, fun s _ _ ha hb => execAdd_invalid_b s ha hb,
    fun _ _ hc hf => stepWith_add hc hf⟩
  case result => rw [State.reg_advancePc, State.reg_setReg_self, BitVec.toNat_ofNat, aluResult]

/-- Settles O12: PUSH lowers SP, then stores at the new SP the register as it then is. -/
theorem pushStoresBelow : Obligations.PushStoresBelow := by
  refine ⟨fun s a ha hm => ⟨_, execPush_valid s ha, ?address, ?sp, ?stored,
    memoryKeptBut_setByte (s := s.decSp) hm _ _, rfl, registersKept_decSp s, rfl, rfl, rfl⟩,
    fun s _ ha => execPush_invalid s ha, fun _ _ hc hf => stepWith_push hc hf⟩
  case address => rw [pushAddress_eq, toNat_sub_one]
  case sp => exact (congrArg BitVec.toNat (State.sp_decSp s)).trans (toNat_sub_one s.sp)
  case stored => exact memRead_setByte_self (s := s.decSp) hm (pushAddress_lt s) _

/-- Settles O13: POP writes the register with the byte at SP, then raises SP, which is that byte where the register is
R7. -/
theorem popLoadsAndRaises : Obligations.PopLoadsAndRaises := by
  refine ⟨fun s a ha => ⟨_, s.mem.readByte (popAddress s), execPop_valid s ha, memRead_of_lt (popAddress_lt s), ?other,
    ?sp, rfl, registersKept_setReg_incSp s _ _, memRead_congr rfl, rfl, rfl, rfl⟩, fun s _ ha => execPop_invalid s ha,
    fun _ _ hc hf => stepWith_pop hc hf⟩
  case other =>
    intro hne
    have hr := index_ne_spIndex ha hne
    constructor
    · rw [State.reg_advancePc, State.reg_incSp, if_neg hr, State.reg_setReg_self]
    · rw [State.sp, State.reg_advancePc, ← State.sp, State.sp_incSp, State.sp, State.reg_setReg_ne s hr.symm,
        ← State.sp, toNat_add_one]
  case sp =>
    intro heq
    have hr : (⟨a.toNat, ha⟩ : Fin numRegs) = spIndex := Fin.ext heq
    rw [hr, State.sp, State.reg_advancePc, ← State.sp, State.sp_incSp, State.sp, State.reg_setReg_self, toNat_add_one]

/-- Settles O14: the unknown-opcode arm is one `reportUnknown`. -/
theorem unknownOpcodeIsReported : Obligations.UnknownOpcodeIsReported :=
  fun _ _ _ hf hop => ⟨_, stepWith_report hf hop, rfl, rfl, hf.1, rfl, fun _ _ => rfl, memRead_congr rfl⟩

/-- Settles O15: an instruction completes or takes the fault of its first invalid operand, as its well-formedness
says. -/
theorem validOperandsDecideCompletion : Obligations.ValidOperandsDecideCompletion := by
  intro i s hr
  rcases exec_cases s i with ⟨hwf, t, ht, hc⟩ | ⟨hwf, j, hj, ht⟩
  · exact ⟨t, ht, fun _ => ⟨hc.pc_eq s, hr ▸ hc.status_eq s⟩,
      fun hnot => absurd (hnot.symm.trans hwf) Bool.false_ne_true⟩
  · exact ⟨s.takeFault (.outOfBoundsReg j), ht, fun hyes => absurd (hwf.symm.trans hyes) Bool.false_ne_true,
      fun _ => ⟨j, validReg_eq_false_iff.mp (invalid_of_firstInvalid hj), hj, rfl⟩⟩

/-- Settles O45: SP is then the push address, so POP reads the byte PUSH stored; PUSH changed no register but SP. -/
theorem stackRoundTrip : Obligations.StackRoundTrip := by
  intro s r q hr hq hm hr7 hq7
  obtain ⟨t, ht, haddr, hspt, hstored, -, -, hkept, -⟩ := pushStoresBelow.1 s r hr hm
  obtain ⟨u, v, hu, hread, hother, -, -, -, hmem, -⟩ := popLoadsAndRaises.1 t q hq
  obtain ⟨hreg, hspu⟩ := hother fun h => hq7 (BitVec.eq_of_toNat_eq h)
  have hpushed : t.reg ⟨r.toNat, hr⟩ = s.reg ⟨r.toNat, hr⟩ :=
    hkept _ (List.mem_singleton.not.mpr (index_ne_spIndex hr fun h => hr7 (BitVec.eq_of_toNat_eq h)))
  rw [hpushed] at hstored
  rw [hspt, ← haddr, hstored] at hread
  refine ⟨t, u, ht, hu, hreg.trans (Except.ok.inj hread).symm, BitVec.eq_of_toNat_eq ?_, (hmem _).trans hstored⟩
  rw [hspu, hspt]
  have hlt := s.sp.isLt
  omega

/-- Settles O47: the results of ADD and MUL in the state that LDI leaves. -/
theorem arithmeticIsModulo256 : Obligations.ArithmeticIsModulo256 := by
  intro s r q v1 hr hq
  obtain ⟨t, ht, hloaded, -⟩ := ldiLoadsImmediate.1 s r v1 hr
  obtain ⟨u, hu, hsum, -⟩ := addAdds.1 t r q hr hq
  obtain ⟨v, hv, hproduct, -⟩ := mulMultiplies.1 t r q hr hq
  rw [hloaded] at hsum hproduct
  exact ⟨t, ht, ⟨u, hu, hsum⟩, ⟨v, hv, hproduct⟩⟩

end Sys2Proof.Machine
end

section
/-! PROOFS of the step (40_cycle.md R68 to R74): the latch, the instruction it runs, the stops, and the whole step as
the pseudocode. -/

namespace Sys2Proof.Machine

variable {c : Config} {s t : State} {i j : Instr} {w : InstrBytes} {a b : Byte}

/-! ### What lies in memory is what is run -/

/-- A byte in memory within three of PC stands at its place among the latched bytes (R69, R70). -/
theorem fetchedBytes_getElem? {k : Nat} {v : Byte} (hk : k < 3) (h : memRead (s.pc + k) s = .ok v) :
    [(fetchedBytes c s).ir, (fetchedBytes c s).a, (fetchedBytes c s).b][k]? = some v := by
  obtain ⟨hlt, hv⟩ := memRead_eq_ok.mp h
  match k, hk with
  | 0, _ => exact congrArg some hv
  | 1, _ => exact congrArg some ((operandFetch_of_lt hlt).trans hv)
  | 2, _ => exact congrArg some ((operandFetch_of_lt hlt).trans hv)

/-- The latched bytes begin with the encoding that lies in memory from PC on (R44, R63). -/
theorem encodeWith_prefix_of_stored
    (h : ∀ k, k < i.length → memRead (s.pc + k) s = .ok ((encodeWith c i).getD k 0)) :
    encodeWith c i <+: [(fetchedBytes c s).ir, (fetchedBytes c s).a, (fetchedBytes c s).b] := by
  refine List.prefix_iff_getElem?.mpr fun k hk => ?_
  have hki : k < i.length := length_encodeWith c i ▸ hk
  rw [fetchedBytes_getElem? (Nat.lt_of_lt_of_le hki (length_le_three i)) (h k hki), List.getD_eq_getElem _ _ hk]

/-- A table word that has an instruction decodes to it. -/
theorem decode_of_decodeTableWord {nbits n : Nat} (h : decodeTableWord nbits n = some i) :
    decode { ir := tableWordByte nbits n 0, a := tableWordByte nbits n 1, b := tableWordByte nbits n 2 } = .ok i := by
  unfold decodeTableWord at h
  split at h
  next hj => exact hj.trans (congrArg _ (Option.some.inj h))
  next => cases h

/-! ### How far a completed instruction moves PC -/

/-- What the latched bytes decode to says how far PC moves (R25). -/
theorem Completes.pc_eq_of_decodeWith (h : Completes s i t) (hi : decodeWith c w = .ok i)
    (hj : decodeWith c w = .ok j) : t.pc = s.pc + j.pcAdvance := by
  obtain rfl : i = j := Except.ok.inj (hi.symm.trans hj)
  exact h.pc_eq s

theorem isFaulted_of_running (h : s.status = .running) : s.isFaulted = false := by
  simp only [State.isFaulted, h]

theorem Completes.not_isFaulted (h : Completes s i t) (hr : s.status = .running) : t.isFaulted = false := by
  have hstatus := h.status_eq s
  rw [hr] at hstatus
  unfold State.isFaulted
  split_ifs at hstatus <;> rw [hstatus]

/-! ### The instructions as the pseudocode writes them (R74) -/

/-- A product in the ALU is a product of bytes: both are modulo 256 (R87). -/
theorem ofNat_aluResult_mul (x y : Byte) : BitVec.ofNat 8 (aluResult .mul x y) = x * y :=
  BitVec.eq_of_toNat_eq (by rw [BitVec.toNat_ofNat, BitVec.toNat_mul, aluResult])

/-- A sum in the ALU is a sum of bytes: both are modulo 256 (R87). -/
theorem ofNat_aluResult_add (x y : Byte) : BitVec.ofNat 8 (aluResult .add x y) = x + y :=
  BitVec.eq_of_toNat_eq (by rw [BitVec.toNat_ofNat, BitVec.toNat_add, aluResult])

/-- One arm of the pseudocode's case distinction, and the arms after it. -/
theorem eq_ite_of {α : Type} {p : Prop} [Decidable p] {x y z : α} (hp : p → x = y) (hn : ¬p → x = z) :
    x = if p then y else z := by
  split
  · exact hp ‹_›
  · exact hn ‹_›

/-- An arm of the pseudocode that checks an operand byte (R18). -/
theorem eq_dite_of_index {α : Type} {x y : α} {f : a.toNat < 8 → α} (hv : ∀ ha, x = f ha)
    (hn : 8 ≤ a.toNat → x = y) : x = if ha : a.toNat < 8 then f ha else y := by
  split
  · exact hv _
  · exact hn (Nat.le_of_not_lt ‹_›)

theorem operandA_eq_ite (c : Config) (s : State) :
    operandA c s = if s.pc + 1 ≤ 255 then s.mem.readByte (s.pc + 1) else c.operandOor :=
  if_congr Nat.lt_succ_iff rfl rfl

theorem operandB_eq_ite (c : Config) (s : State) :
    operandB c s = if s.pc + 2 ≤ 255 then s.mem.readByte (s.pc + 2) else c.operandOor :=
  if_congr Nat.lt_succ_iff rfl rfl

theorem execMul_pseudocode (ha : a.toNat < 8) (hb : b.toNat < 8) : execMul a b s = .next { s with
    regs := s.regs.set a.toNat (s.regs[a.toNat] * s.regs[b.toNat])
    pc := s.pc + 3 } := by
  rw [execMul_valid s ha hb, ofNat_aluResult_mul]
  rfl

theorem execAdd_pseudocode (ha : a.toNat < 8) (hb : b.toNat < 8) : execAdd a b s = .next { s with
    regs := s.regs.set a.toNat (s.regs[a.toNat] + s.regs[b.toNat])
    pc := s.pc + 3 } := by
  rw [execAdd_valid s ha hb, ofNat_aluResult_add]
  rfl

/-- PUSH with SP and the stored byte as the pseudocode names them. -/
theorem execPush_pseudocode (ha : a.toNat < 8) : execPush a s = .next { s with
    regs := s.regs.set 7 (s.regs[7] - 1)
    mem := s.mem.writeByte (s.regs[7] - 1).toNat (s.regs.set 7 (s.regs[7] - 1))[a.toNat]
    pc := s.pc + 2 } := by
  rw [execPush_valid s ha, pushAddress_eq, State.decSp_eq]
  rfl

/-- POP with SP and the loaded byte as the pseudocode names them. -/
theorem execPop_pseudocode (ha : a.toNat < 8) : execPop a s = .next { s with
    regs := (s.regs.set a.toNat (s.mem.readByte s.regs[7].toNat)).set 7
      ((s.regs.set a.toNat (s.mem.readByte s.regs[7].toNat))[7] + 1)
    pc := s.pc + 2 } := by
  rw [execPop_valid s ha, State.incSp_eq]
  rfl

/-! ### The obligations -/

/-- Settles O24: the latched bytes begin with the encoding, so they decode to the instruction. -/
theorem stepRunsStoredInstruction : Obligations.StepRunsStoredInstruction := by
  intro c s i hc hr hstored
  have hpc : s.pc < memSize := (memRead_eq_ok.mp (hstored 0 (Nat.lt_add_right _ Nat.one_pos))).1
  exact stepWith_exec hr (latch_of_lt hpc) (decodeWith_of_encodeWith_prefix hc (encodeWith_prefix_of_stored hstored))

/-- Settles O25: the placed bytes are the latched ones. -/
theorem fetchWordIsRun : Obligations.FetchWordIsRun := by
  intro s nbits n i hr hm hp hn
  obtain ⟨hpc, hstatus, hbytes⟩ := fetchedBytes_withFetchWord (c := machineConfig) hm hp nbits n
  have hlt : (s.withFetchWord nbits n).pc < memSize := hpc ▸ Nat.lt_of_le_of_lt (Nat.le_add_right _ 2) hp
  exact stepWith_exec (hstatus.trans hr) (latch_of_lt hlt) (hbytes ▸ decode_of_decodeTableWord hn)

/-- Settles O23: `stepWith` adds nothing around `exec`. -/
theorem stepRunsDecodedInstruction : Obligations.StepRunsDecodedInstruction :=
  fun _ _ _ _ => stepWith_exec

/-- Settles O27: HALTED and FAULTED stop by name, and RUNNING answers a next state. -/
theorem stopsNameTheStatus : Obligations.StopsNameTheStatus := by
  intro c s
  refine ⟨stepWith_halted, fun _ => stepWith_faulted, fun r h => ?_⟩
  match hs : s.status with
  | .running =>
    obtain ⟨t, ht, -⟩ := stepWith_running c hs
    exact nomatch ht.symm.trans h
  | .halted => exact nomatch (stepWith_halted hs).symm.trans h
  | .faulted _ => exact nomatch (stepWith_faulted hs).symm.trans h

/-- Settles O28: the opcode fetch is the one access of the latch that can fail. -/
theorem opcodeFetch : Obligations.OpcodeFetch :=
  ⟨fun _ _ hr hpc => stepWith_fetchFault hr hpc, fun _ _ hpc => ⟨_, latch_of_lt hpc, memRead_of_lt hpc⟩⟩

/-- Settles O29: the two pre-fetches read memory below 256 and give 0 from there on. -/
theorem operandPrefetch : Obligations.OperandPrefetch := by
  intro s w hw
  obtain ⟨-, rfl⟩ := latch_eq_ok hw
  exact ⟨fun h => memRead_eq_ok.mpr ⟨h, (operandFetch_of_lt h).symm⟩, operandFetch_of_ge,
    fun h => memRead_eq_ok.mpr ⟨h, (operandFetch_of_lt h).symm⟩, operandFetch_of_ge⟩

/-- Settles O30: a fault leaves PC; otherwise the decoded instruction, or the unknown-opcode arm, gives the advance. -/
theorem pcAdvanceOfEachOpcode : Obligations.PcAdvanceOfEachOpcode := by
  intro c s t op hc hf hstep
  obtain ⟨hpc, hir⟩ := hf.fetchedBytes_ir (c := c)
  obtain ⟨hr, hs⟩ := stepWith_next hstep
  cases hs with
  | fetchFault hge => exact absurd hpc (Nat.not_lt.mpr hge)
  | regFault => exact ⟨fun _ => rfl, nofun⟩
  | complete _ _ hi _ ht =>
    refine ⟨fun hfault => absurd ((ht.not_isFaulted hr).symm.trans hfault) Bool.false_ne_true,
      fun _ => ⟨?_, ?_, ?_, ?_⟩⟩
    · rintro (h | h | h)
      · exact ht.pc_eq_of_decodeWith hi (decodeWith_ldi (hir.trans h))
      · exact ht.pc_eq_of_decodeWith hi (decodeWith_mul (hir.trans h))
      · exact ht.pc_eq_of_decodeWith hi (decodeWith_add hc (hir.trans h))
    · rintro (h | h | h)
      · exact ht.pc_eq_of_decodeWith hi (decodeWith_prn (hir.trans h))
      · exact ht.pc_eq_of_decodeWith hi (decodeWith_push hc (hir.trans h))
      · exact ht.pc_eq_of_decodeWith hi (decodeWith_pop hc (hir.trans h))
    · rintro (h | h)
      · exact ht.pc_eq_of_decodeWith hi (decodeWith_nop hc (hir.trans h))
      · exact absurd (hir ▸ (opcode_of_decodeWith_eq_ok hi).2) h
    · exact fun h => ht.pc_eq_of_decodeWith hi (decodeWith_hlt (hir.trans h))
  | unknown _ hop =>
    have hop : op ∉ c.opcodes := hir ▸ hop
    simp only [Config.opcodes, List.mem_cons, List.not_mem_nil, or_false, not_or] at hop
    obtain ⟨-, hhlt, hprn, hldi, hmul, hadd, hpush, hpop⟩ := hop
    have hrunning : ((s.reportUnknown s.pc (s.mem.readByte s.pc)).advancePc 1).isFaulted = false :=
      isFaulted_of_running hr
    refine ⟨fun hfault => absurd (hrunning.symm.trans hfault) Bool.false_ne_true,
      fun _ => ⟨?_, ?_, fun _ => rfl, fun h => absurd h hhlt⟩⟩
    · rintro (h | h | h) <;> contradiction
    · rintro (h | h | h) <;> contradiction

/-- Settles O31: each opcode byte selects its arm, and each arm is the instruction of the same state and operands. -/
theorem stepIsThePseudocode : Obligations.StepIsThePseudocode := by
  intro c s hc hr
  extract_lets raise ir a b sp
  obtain ha : a = operandA c s := (operandA_eq_ite c s).symm
  obtain hb : b = operandB c s := (operandB_eq_ite c s).symm
  clear_value a b
  subst ha hb
  refine eq_ite_of (stepWith_fetchFault hr) fun hpc => ?_
  have hf {op : Byte} (hop : ir = op) : Fetches op s :=
    ⟨hr, memRead_eq_ok.mpr ⟨Nat.lt_of_not_le hpc, hop⟩⟩
  refine eq_ite_of (fun hldi => (stepWith_ldi (hf hldi)).trans
    (eq_dite_of_index (execLdi_valid s _) (execLdi_invalid s _))) fun hldi => ?_
  refine eq_ite_of (fun hprn => (stepWith_prn (hf hprn)).trans
    (eq_dite_of_index (fun ha => execPrn_valid s ha) (execPrn_invalid s))) fun hprn => ?_
  refine eq_ite_of (fun hhlt => hltHalts.2 c s hc (hf hhlt)) fun hhlt => ?_
  refine eq_ite_of (fun hmul => (stepWith_mul (hf hmul)).trans
    (eq_dite_of_index (fun ha => eq_dite_of_index (execMul_pseudocode ha) (execMul_invalid_b s ha))
      (execMul_invalid_a s _))) fun hmul => ?_
  refine eq_ite_of (fun hadd => (stepWith_add hc (hf hadd)).trans
    (eq_dite_of_index (fun ha => eq_dite_of_index (execAdd_pseudocode ha) (execAdd_invalid_b s ha))
      (execAdd_invalid_a s _))) fun hadd => ?_
  refine eq_ite_of (fun hpush => (stepWith_push hc (hf hpush)).trans
    (eq_dite_of_index execPush_pseudocode (execPush_invalid s))) fun hpush => ?_
  refine eq_ite_of (fun hpop => (stepWith_pop hc (hf hpop)).trans
    (eq_dite_of_index execPop_pseudocode (execPop_invalid s))) fun hpop => ?_
  refine eq_ite_of (fun hnop => nopOnlyAdvancesPc.2 c s hc (hf hnop)) fun hnop => ?_
  have hunknown : ir ∉ c.opcodes := by
    simp only [Config.opcodes, List.mem_cons, List.not_mem_nil, or_false, not_or]
    exact ⟨hnop, hhlt, hprn, hldi, hmul, hadd, hpush, hpop⟩
  exact stepWith_report (hf rfl) hunknown

end Sys2Proof.Machine
end

section
/-! PROOFS of the rules for the whole machine: faults and the status (60_exceptions.md), who writes memory and the
channels, and what no instruction reads (10_state.md, 20_memory.md). -/

namespace Sys2Proof.Machine

variable {c : Config} {s t : State} {i : Instr} {w : InstrBytes} {k : FaultKind} {j : Byte}

/-! ### What `exec` answers, both ways -/

theorem exec_of_completes (h : Completes s i t) : exec i s = .next t := by
  cases h with
  | nop => exact execNop_eq s
  | hlt => exact execHlt_eq s
  | prn h => exact execPrn_valid s h
  | ldi h => exact execLdi_valid s _ h
  | mul ha hb => exact execMul_valid s ha hb
  | add ha hb => exact execAdd_valid s ha hb
  | push h => exact execPush_valid s h
  | pop h => exact execPop_valid s h

/-- An instruction leads to its effect, or to the fault of its first invalid operand, and to nothing else. -/
theorem exec_eq_next_iff : exec i s = .next t ↔
    Completes s i t ∨ ∃ j, firstInvalid i = some j ∧ t = s.takeFault (.outOfBoundsReg j) := by
  rcases exec_cases s i with ⟨hwf, u, hu, hc⟩ | ⟨-, j, hj, hu⟩
  · have hnone : firstInvalid i = none :=
      List.find?_eq_none.mpr fun r hr => by simpa using List.all_eq_true.mp hwf r hr
    constructor
    · rw [hu]
      rintro ⟨⟩
      exact .inl hc
    · rintro (h | ⟨j, hj, -⟩)
      · exact exec_of_completes h
      · exact nomatch hnone.symm.trans hj
  · constructor
    · rw [hu]
      rintro ⟨⟩
      exact .inr ⟨j, hj, rfl⟩
    · rintro (h | ⟨j', hj', rfl⟩)
      · exact exec_of_completes h
      · rw [hu, Option.some.inj (hj.symm.trans hj')]

/-! ### The status a step leads to -/

/-- A step that faults took the fault of the opcode fetch or of the first invalid register operand, and nothing else
happened (R95, R100). -/
theorem Stepped.faulted_cases (h : Stepped c s t) (hr : s.status = .running) (hk : t.status = .faulted k) :
    t = s.takeFault k ∧ ((memSize ≤ s.pc ∧ k = .outOfBoundsMem s.pc) ∨
      ∃ i j, s.pc < memSize ∧ decodeWith c (fetchedBytes c s) = .ok i ∧ firstInvalid i = some j ∧
        k = .outOfBoundsReg j) := by
  cases h with
  | fetchFault hpc =>
    cases hk
    exact ⟨rfl, .inl ⟨hpc, rfl⟩⟩
  | regFault hpc _ hi _ hj =>
    cases hk
    exact ⟨rfl, .inr ⟨_, _, hpc, hi, hj, rfl⟩⟩
  | unknown => exact nomatch hr.symm.trans hk
  | complete _ _ _ _ ht =>
    have hfaulted : t.isFaulted = true := by simp only [State.isFaulted, hk]
    exact absurd ((ht.not_isFaulted hr).symm.trans hfaulted) Bool.false_ne_true

/-- A step leads to HALTED only by an HLT byte at PC (R80). -/
theorem Stepped.hlt_of_halted (h : Stepped c s t) (hr : s.status = .running) (ht : t.status = .halted) :
    memRead s.pc s = .ok opHlt := by
  cases h with
  | fetchFault => cases ht
  | regFault => cases ht
  | unknown => exact nomatch hr.symm.trans ht
  | @complete i _ hpc hop _ _ hc =>
    by_cases hi : i = .hlt
    · exact memRead_eq_ok.mpr ⟨hpc, by rw [← hop, hi]; rfl⟩
    · rw [hc.status_eq, if_neg hi, hr] at ht
      cases ht

/-! ### Invalid register operands -/

/-- Which latched bytes name registers: none, the first, or both, and both only for the ALU's opcodes (R58). -/
theorem registerOperands_cases (hi : decodeWith c w = .ok i) :
    i.registerOperands = [] ∨
    (i.registerOperands = [w.a] ∧ i.opcode c ∈ [opLdi, opPrn, opMul, c.opAdd, c.opPush, c.opPop]) ∨
    (i.registerOperands = [w.a, w.b] ∧ i.opcode c ∈ [opMul, c.opAdd]) := by
  have hargs : i.operands <+: [w.a, w.b] := (List.cons_prefix_cons.mp (encodeWith_prefix_of_decodeWith hi)).2
  cases i with
  | nop | hlt => exact .inl rfl
  | ldi =>
    exact .inr (.inl ⟨by rw [Instr.registerOperands, (pair_prefix_pair.mp hargs).1], by simp [Instr.opcode]⟩)
  | prn | push | pop =>
    exact .inr (.inl ⟨by rw [Instr.registerOperands, singleton_prefix_pair.mp hargs], by simp [Instr.opcode]⟩)
  | mul | add =>
    obtain ⟨ha, hb⟩ := pair_prefix_pair.mp hargs
    exact .inr (.inr ⟨by rw [Instr.registerOperands, ha, hb], by simp [Instr.opcode]⟩)

theorem firstInvalid_of_one {a : Byte} (hi : i.registerOperands = [a]) (h : firstInvalid i = some j) :
    numRegs ≤ a.toNat ∧ j = a := by
  have hj := List.mem_of_find?_eq_some h
  rw [hi, List.mem_singleton] at hj
  exact ⟨hj ▸ validReg_eq_false_iff.mp (invalid_of_firstInvalid h), hj⟩

/-- Of two operands the second is reported only where the first is valid (R102). -/
theorem firstInvalid_of_two {a b : Byte} (hi : i.registerOperands = [a, b]) (h : firstInvalid i = some j) :
    (numRegs ≤ a.toNat ∧ j = a) ∨ (a.toNat < numRegs ∧ numRegs ≤ b.toNat ∧ j = b) := by
  have hinvalid := validReg_eq_false_iff.mp (invalid_of_firstInvalid h)
  rw [firstInvalid, hi] at h
  rcases Nat.lt_or_ge a.toNat numRegs with ha | ha
  · rw [List.find?_cons_of_neg (by simp [validReg_iff.mpr ha])] at h
    obtain rfl : j = b := List.mem_singleton.mp (List.mem_of_find?_eq_some h)
    exact .inr ⟨ha, hinvalid, rfl⟩
  · rw [List.find?_cons_of_pos (by simp [validReg_eq_false_iff.mpr ha])] at h
    exact .inl ⟨ha, (Option.some.inj h).symm⟩

/-! ### The same instruction from another state -/

/-- A completed instruction has the same effect whatever PC is (R23). -/
theorem Completes.with_pc (h : Completes s i t) (p : Nat) :
    Completes { s with pc := p } i { t with pc := p + i.pcAdvance } := by
  cases h <;> constructor

/-- A completed instruction other than PUSH and POP has the same effect over any memory (R37). -/
theorem Completes.with_mem (h : Completes s i t) (hi : ∀ a, i ≠ .push a ∧ i ≠ .pop a) (m : Memory) :
    Completes { s with mem := m } i { t with mem := m } := by
  cases h with
  | push _ => exact absurd rfl (hi _).1
  | pop _ => exact absurd rfl (hi _).2
  | _ => constructor

/-- A completed instruction appends to `out` what it appends whatever the channels hold (R32). -/
theorem Completes.with_channels (h : Completes s i t) (out : List Byte) (diag : List Report) :
    ∃ new, t.out = s.out ++ new ∧
      Completes { s with out := out, diag := diag } i { t with out := out ++ new, diag := diag } := by
  cases h with
  | prn h => exact ⟨[_], rfl, .prn h⟩
  | _ =>
    refine ⟨[], (List.append_nil _).symm, ?_⟩
    rw [List.append_nil]
    constructor

/-! ### The obligations -/

/-- Settles O32: both faults a step can take are `takeFault`. -/
theorem faultsArePrecise : Obligations.FaultsArePrecise := by
  intro c s t k hstep hk
  obtain ⟨hr, hs⟩ := stepWith_next hstep
  exact (hs.faulted_cases hr hk).1

/-- Settles O33: the operand that is reported is the first invalid one of an instruction with one or two registers. -/
theorem causesOfFaults : Obligations.CausesOfFaults := by
  intro c s t k _ hstep hk
  obtain ⟨hr, hs⟩ := stepWith_next hstep
  obtain ⟨-, hfetch | ⟨i, j, hpc, hi, hj, rfl⟩⟩ := hs.faulted_cases hr hk
  · exact .inl hfetch
  · have hf : Fetches (i.opcode c) s :=
      ⟨hr, memRead_eq_ok.mpr ⟨hpc, (opcode_of_decodeWith_eq_ok hi).1.symm⟩⟩
    have htwo : [opMul, c.opAdd] <:+: [opLdi, opPrn, opMul, c.opAdd, c.opPush, c.opPop] :=
      ⟨[opLdi, opPrn], [c.opPush, c.opPop], rfl⟩
    rcases registerOperands_cases hi with hops | ⟨hops, hop⟩ | ⟨hops, hop⟩
    · simp [firstInvalid, hops] at hj
    · obtain ⟨ha, rfl⟩ := firstInvalid_of_one hops hj
      exact .inr (.inl ⟨_, hf, hop, ha, rfl⟩)
    · rcases firstInvalid_of_two hops hj with ⟨ha, rfl⟩ | ⟨ha, hb, rfl⟩
      · exact .inr (.inl ⟨_, hf, htwo.subset hop, ha, rfl⟩)
      · exact .inr (.inr ⟨_, hf, hop, ha, hb, rfl⟩)

/-- Settles O34: no other effect sets HALTED, and a fetched HLT does. -/
theorem haltedOnlyByHlt : Obligations.HaltedOnlyByHlt := by
  intro c s t hc hstep
  obtain ⟨hr, hs⟩ := stepWith_next hstep
  refine ⟨hs.hlt_of_halted hr, fun hbyte => ?_⟩
  have hhlt : Host.Outcome.next t = .next s.halt := hstep.symm.trans (hltHalts.2 c s hc ⟨hr, hbyte⟩)
  rw [Host.Outcome.next.inj hhlt, State.halt_status]

/-- Settles O36: every effect but that of PUSH keeps the memory, and PUSH stores one byte at its address. -/
theorem onlyPushWritesMemory : Obligations.OnlyPushWritesMemory := by
  intro c s t addr _ hm hstep hchanged
  obtain ⟨hr, hs⟩ := stepWith_next hstep
  cases hs with
  | fetchFault | regFault | unknown => exact absurd rfl hchanged
  | @complete i _ hpc hop _ _ ht =>
    by_cases hpush : ∃ a, i = .push a
    · obtain ⟨a, rfl⟩ := hpush
      cases ht with
      | push ha =>
        refine ⟨⟨hr, memRead_eq_ok.mpr ⟨hpc, hop.symm⟩⟩, ?_⟩
        by_contra hne
        exact hchanged (memoryKeptBut_setByte (s := s.decSp) hm _ _ addr hne)
    · exact absurd (memRead_congr (ht.mem_eq s fun a h => hpush ⟨a, h⟩) addr) hchanged

/-- Settles O37: PRN is the one effect on `out`, the unknown-opcode arm the one on `diag`. -/
theorem channelsOnlyGrow : Obligations.ChannelsOnlyGrow := by
  intro c s t _ hstep
  obtain ⟨hr, hs⟩ := stepWith_next hstep
  cases hs with
  | fetchFault | regFault => exact .inl ⟨rfl, rfl⟩
  | unknown hpc hop => exact .inr (.inr ⟨_, ⟨hr, memRead_of_lt hpc⟩, hop, rfl, rfl⟩)
  | @complete i _ hpc hop _ _ ht =>
    by_cases hprn : ∃ a, i = .prn a
    · obtain ⟨a, rfl⟩ := hprn
      cases ht with
      | prn ha => exact .inr (.inl ⟨_, ⟨hr, memRead_eq_ok.mpr ⟨hpc, hop.symm⟩⟩, rfl, rfl⟩)
    · exact .inl ⟨ht.out_eq s fun a h => hprn ⟨a, h⟩, ht.diag_eq s⟩

/-- Settles O38: the latch does not read the channels, and each effect appends to them without looking. -/
theorem channelsAreNeverRead : Obligations.ChannelsAreNeverRead := by
  intro c s t out diag hstep
  obtain ⟨hr, hs⟩ := stepWith_next hstep
  cases hs with
  | fetchFault hpc =>
    refine ⟨[], [], (List.append_nil _).symm, (List.append_nil _).symm, ?_⟩
    rw [List.append_nil, List.append_nil]
    exact stepWith_fetchFault hr hpc
  | regFault hpc _ hi _ hj =>
    refine ⟨[], [], (List.append_nil _).symm, (List.append_nil _).symm, ?_⟩
    rw [List.append_nil, List.append_nil]
    exact (stepWith_exec (s := { s with out := out, diag := diag }) hr (latch_of_lt hpc) hi).trans
      (exec_eq_next_iff.mpr (.inr ⟨_, hj, rfl⟩))
  | unknown hpc hop =>
    refine ⟨[], [_], (List.append_nil _).symm, rfl, ?_⟩
    rw [List.append_nil]
    exact stepWith_report ⟨hr, memRead_of_lt hpc⟩ hop
  | complete hpc _ hi _ ht =>
    obtain ⟨new, hout, hc⟩ := ht.with_channels out diag
    refine ⟨new, [], hout, (ht.diag_eq s).trans (List.append_nil _).symm, ?_⟩
    rw [List.append_nil]
    exact (stepWith_exec (s := { s with out := out, diag := diag }) hr (latch_of_lt hpc) hi).trans
      (exec_of_completes hc)

/-- Settles O39: an effect moves PC by the instruction's advance, a fault by nothing. -/
theorem pcIsNeverReadAsData : Obligations.PcIsNeverReadAsData := by
  intro i s t p hexec
  rcases exec_eq_next_iff.mp hexec with hc | ⟨j, hj, rfl⟩
  · exact ⟨i.pcAdvance, pcAdvance_le_three i, hc.pc_eq s, exec_of_completes (hc.with_pc p)⟩
  · exact ⟨0, Nat.zero_le _, rfl, exec_eq_next_iff.mpr (.inr ⟨j, hj, rfl⟩)⟩

/-- Settles O40: neither the effect nor the fault of these six looks at memory. -/
theorem noDataAccessButByStack : Obligations.NoDataAccessButByStack := by
  intro i s t m hi hexec
  rcases exec_eq_next_iff.mp hexec with hc | ⟨j, hj, rfl⟩
  · exact exec_of_completes (hc.with_mem hi m)
  · exact exec_eq_next_iff.mpr (.inr ⟨j, hj, rfl⟩)

end Sys2Proof.Machine
end
